-- ==== Sys2Proof/Word.lean ====
section
/-! DEFINITION. The word types of M2E-BPA: what each width of the spec is called. -/

namespace Sys2Proof

/-- A byte of the output view, and the type of CSGOT and CSEXP (00_scope.md R5, BYTEW = 8). -/
abbrev Byte := BitVec 8

/-- A command word, `CMDW` = 16 bits (00_scope.md R7, 30_encoding.md R70). -/
abbrev CommandWord := BitVec 16

/-- The DATA half of a response, `DATAW` = 16 bits (00_scope.md R7, 30_encoding.md R76). -/
abbrev DataWord := BitVec 16

/-- A Word Index, `IDXW` = 11 bits; every value is legal (00_scope.md R5, R6). -/
abbrev WordIndex := BitVec 11

/-- An address in the OUT space as encodable in `RDB` (10_state.md R33). -/
abbrev OutAddr := BitVec 6

/-- The word of the hash function (42_sha256.md R131). -/
abbrev Word32 := BitVec 32

/-- A bit sequence, indexed from 0 at its first element (00_scope.md R9). -/
abbrev BitSeq := List Bool

end Sys2Proof
end

