-- ==== Sys2Proof/Config.lean ====
section
/-! DEFINITION. The parameters of M2E-BPA (00_scope.md R5 and R7). The spec leaves no result of a command
open, so there is no free value here. -/

namespace Sys2Proof.Config

/-- `VALID_WC`: the word counts accepted at finalisation (00_scope.md R5). -/
def validWordCounts : List Nat := [12, 15, 18, 21, 24]

/-- `WMAX`: how many pushed indices have their bits stored (00_scope.md R7).
DESIGN CHOICE, log 8: an open parameter of the spec, taken at its default; safe. -/
def wmax : Nat := 24

/-- `BSCAP` = 11 · WMAX: the capacity of the bit store in bits (00_scope.md R7). -/
def bscap : Nat := 11 * wmax

/-- `OUTCAP` = BSCAP / 8: the capacity of the output space in bytes (00_scope.md R7). -/
def outcap : Nat := bscap / 8

/-- `WCNT_MAX`: where the 8-bit word counter saturates (00_scope.md R7, 10_state.md R23).
DESIGN CHOICE, log 8: `WCNTW` is an open parameter of the spec, taken at its default; safe. -/
def wcntMax : Nat := 255

/-- `CMDSET`: the version of the command set modelled (00_scope.md R7, 30_encoding.md R72). -/
def cmdset : Nat := 1

end Sys2Proof.Config
end

