-- ==== Sys2Proof/Syntax.lean ====
section
/-! DEFINITION. The commands of M2E-BPA as syntax: one constructor per row of spec/opcode_table.json
(30_encoding.md R72). Operands have the width of their field (R73), so every term is one of the 2118
commands and no ill-formed command can be built. -/

namespace Sys2Proof

/-- The eight commands (30_encoding.md R72). -/
inductive Instr where
  /-- `STAT` (43_readout.md R151). -/
  | stat
  /-- `CLR` (40_accumulate.md R91). -/
  | clr
  /-- `PUSH idx` (40_accumulate.md R92). -/
  | push (idx : WordIndex)
  /-- `FIN.S` (41_finalize.md R111). -/
  | finS
  /-- `FIN.L` (41_finalize.md R112). -/
  | finL
  /-- `RDB n` (43_readout.md R156). -/
  | rdb (n : OutAddr)
  /-- `RDL` (43_readout.md R153). -/
  | rdl
  /-- `RDC` (43_readout.md R154). -/
  | rdc
  deriving DecidableEq, Repr

end Sys2Proof
end

