-- ==== Sys2Proof/WellFormed.lean ====
section
/-! DEFINITION. Well-formed commands. A command as a programmer writes it is a mnemonic and at most one
number (30_encoding.md R78); the checks of R78 say which of these are commands: "a number outside the range
is an assembly error, not an encoding". `Instr` holds exactly the terms that pass. -/

namespace Sys2Proof

/-- The mnemonics of 30_encoding.md R72. -/
inductive Mnemonic where
  | STAT | CLR | PUSH | FINS | FINL | RDB | RDL | RDC
  deriving DecidableEq, Repr

/-- A command as written: a mnemonic and at most one unsigned number (30_encoding.md R78). -/
structure Source where
  mnemonic : Mnemonic
  operand  : Option Nat
  deriving DecidableEq, Repr

/-- What 30_encoding.md R78 rejects in a `Source`. -/
inductive SourceError where
  /-- `PUSH` or `RDB` written without its operand. -/
  | missingOperand
  /-- An operand after a mnemonic that takes none. -/
  | unexpectedOperand
  /-- `PUSH` with a number above 2047. -/
  | indexOutOfRange
  /-- `RDB` with a number above 63. -/
  | addressOutOfRange
  deriving DecidableEq, Repr

/-- The checks of 30_encoding.md R78, in one place: the error, or nothing when the source is a command. -/
def Source.problem : Source → Option SourceError
  | ⟨.PUSH, none⟩   => some .missingOperand
  | ⟨.PUSH, some k⟩ => if k < 2048 then none else some .indexOutOfRange
  | ⟨.RDB, none⟩    => some .missingOperand
  | ⟨.RDB, some k⟩  => if k < 64 then none else some .addressOutOfRange
  | ⟨_, none⟩       => none
  | ⟨_, some _⟩     => some .unexpectedOperand

/-- A source is well-formed when R78 finds nothing wrong with it. -/
def Source.wellFormed (c : Source) : Bool := c.problem.isNone

/-- The command a source stands for, when R78 finds nothing wrong with it. -/
def Source.toInstr : Source → Option Instr
  | ⟨.STAT, none⟩   => some .stat
  | ⟨.CLR, none⟩    => some .clr
  | ⟨.PUSH, some k⟩ => if k < 2048 then some (.push (BitVec.ofNat 11 k)) else none
  | ⟨.FINS, none⟩   => some .finS
  | ⟨.FINL, none⟩   => some .finL
  | ⟨.RDB, some k⟩  => if k < 64 then some (.rdb (BitVec.ofNat 6 k)) else none
  | ⟨.RDL, none⟩    => some .rdl
  | ⟨.RDC, none⟩    => some .rdc
  | _               => none

/-- A command as it is written. -/
def Instr.source : Instr → Source
  | .stat     => ⟨.STAT, none⟩
  | .clr      => ⟨.CLR, none⟩
  | .push idx => ⟨.PUSH, some idx.toNat⟩
  | .finS     => ⟨.FINS, none⟩
  | .finL     => ⟨.FINL, none⟩
  | .rdb n    => ⟨.RDB, some n.toNat⟩
  | .rdl      => ⟨.RDL, none⟩
  | .rdc      => ⟨.RDC, none⟩

/-- A command is well-formed when its written form is. The operand widths make this true of every term
(Laws/PerInstr.lean). -/
def Instr.wellFormed (i : Instr) : Bool := i.source.wellFormed

end Sys2Proof
end

