-- ==== Sys2Proof/Decode.lean ====
section
/-! DEFINITION. Decoding: a total function from 16-bit words to the eight commands and the verdict
"illegal" (30_encoding.md R70 to R75), and the encoder. The command word is a single value on a 16-bit
port and has no byte order (20_memory.md R51). -/

namespace Sys2Proof

/-- Why a word is illegal: the clauses of 30_encoding.md R74. The block itself answers one verdict,
`E_ILLEGAL`, for all of them (DESIGN CHOICE, log 18: the names are the model's; safe). -/
inductive Illegal where
  /-- `op` in 0x7..0xF. -/
  | undefinedOp
  /-- A `STAT`, `CLR`, `RDL` or `RDC` opcode with any of bits 11:0 non-zero. -/
  | operandBits
  /-- A `PUSH` opcode with bit 11 set. -/
  | indexBit11
  /-- A `FIN` opcode with any of bits 11:1 non-zero. -/
  | modeBits
  /-- An `RDB` opcode with any of bits 11:6 non-zero. -/
  | addressBits
  deriving DecidableEq, Repr

/-- What a word decodes to (30_encoding.md R75). -/
inductive Decoded where
  | command (i : Instr)
  | illegal (why : Illegal)
  deriving DecidableEq, Repr

/-- The opcode field, bits 15:12 in every format (30_encoding.md R70, R71). -/
def opField (w : CommandWord) : BitVec 4 := w.extractLsb' 12 4

/-- Bits 11:0, all zero in format Z (30_encoding.md R71). -/
def lowField (w : CommandWord) : BitVec 12 := w.extractLsb' 0 12

/-- `idx` = bits 10:0 of format I (30_encoding.md R73). -/
def idxField (w : CommandWord) : WordIndex := w.extractLsb' 0 11

/-- Bit 11, zero in format I (30_encoding.md R71). -/
def bit11 (w : CommandWord) : BitVec 1 := w.extractLsb' 11 1

/-- `m` = bit 0 of format F (30_encoding.md R73). -/
def modeField (w : CommandWord) : BitVec 1 := w.extractLsb' 0 1

/-- Bits 11:1, zero in format F (30_encoding.md R71). -/
def finZeroField (w : CommandWord) : BitVec 11 := w.extractLsb' 1 11

/-- `n` = bits 5:0 of format A (30_encoding.md R73). -/
def addrField (w : CommandWord) : OutAddr := w.extractLsb' 0 6

/-- Bits 11:6, zero in format A (30_encoding.md R71). -/
def addrZeroField (w : CommandWord) : BitVec 6 := w.extractLsb' 6 6

/-- A format-Z word: the command when bits 11:0 are zero. -/
def decodeZ (i : Instr) (w : CommandWord) : Decoded :=
  if lowField w = 0 then .command i else .illegal .operandBits

/-- A format-I word (30_encoding.md R71, R73). -/
def decodeI (w : CommandWord) : Decoded :=
  if bit11 w = 0 then .command (.push (idxField w)) else .illegal .indexBit11

/-- A format-F word: `m` selects the mode (30_encoding.md R71, R73). -/
def decodeF (w : CommandWord) : Decoded :=
  if finZeroField w = 0 then .command (if modeField w = 0 then .finS else .finL) else .illegal .modeBits

/-- A format-A word (30_encoding.md R71, R73). -/
def decodeA (w : CommandWord) : Decoded :=
  if addrZeroField w = 0 then .command (.rdb (addrField w)) else .illegal .addressBits

/-- `decode(w)` of 30_encoding.md R75. -/
def decode (w : CommandWord) : Decoded :=
  if opField w = 0x0 then decodeZ .stat w
  else if opField w = 0x1 then decodeZ .clr w
  else if opField w = 0x2 then decodeI w
  else if opField w = 0x3 then decodeF w
  else if opField w = 0x4 then decodeA w
  else if opField w = 0x5 then decodeZ .rdl w
  else if opField w = 0x6 then decodeZ .rdc w
  else .illegal .undefinedOp

/-- The encoder (30_encoding.md R75): the word of a command. -/
def encode : Instr → CommandWord
  | .stat     => 0x0000
  | .clr      => 0x1000
  | .push idx => 0x2000 + idx.setWidth 16
  | .finS     => 0x3000
  | .finL     => 0x3001
  | .rdb n    => 0x4000 + n.setWidth 16
  | .rdl      => 0x5000
  | .rdc      => 0x6000

/-- A row of the command map: a word w is this command iff (w AND mask) = pattern (30_encoding.md R72). -/
structure TableRow where
  mnemonic : Mnemonic
  pattern  : CommandWord
  mask     : CommandWord
  deriving DecidableEq, Repr

/-- The word `w` is the command of row `r` (30_encoding.md R72). -/
def TableRow.selects (r : TableRow) (w : CommandWord) : Bool := w &&& r.mask == r.pattern

/-- The match and mask columns of 30_encoding.md R72. -/
def commandMap : List TableRow :=
  [⟨.STAT, 0x0000, 0xFFFF⟩, ⟨.CLR, 0x1000, 0xFFFF⟩, ⟨.PUSH, 0x2000, 0xF800⟩, ⟨.FINS, 0x3000, 0xFFFF⟩,
   ⟨.FINL, 0x3001, 0xFFFF⟩, ⟨.RDB, 0x4000, 0xFFC0⟩, ⟨.RDL, 0x5000, 0xFFFF⟩, ⟨.RDC, 0x6000, 0xFFFF⟩]

/-- The command word that a table word of `nbits` bits stands for. Every row has 16 bits (30_encoding.md
R70); a shorter word has zeros above it (DESIGN CHOICE, log 17; safe). -/
def tableWord (nbits w : Nat) : CommandWord := BitVec.ofNat 16 (w % 2 ^ nbits)

/-- The command the decoder reads from a word numbered as spec/opcode_table.json numbers it. -/
def decodeTableWord (nbits w : Nat) : Option Instr :=
  match decode (tableWord nbits w) with
  | .command i => some i
  | .illegal _ => none

end Sys2Proof
end

