-- ==== Sys2Proof/Machine/State.lean ====
section
/-! DEFINITION. The architectural state of one M2E-BPA instance (10_state.md R20): nine components and
nothing else, beside the two ports of its host. -/

namespace Sys2Proof.Machine

/-- `PHASE` (10_state.md R24). The reserved code 3 has no constructor: R24 and 93_implementation_defined.md
U8 ask for three values only. -/
inductive Phase where
  /-- A decode call is open. -/
  | accum
  /-- The decode call ended in a successful Entropy Buffer. -/
  | ok
  /-- The decode call ended in a classified failure. -/
  | fail
  deriving DecidableEq, Repr

/-- `FMODE`, the mode of a finalise (10_state.md R25). -/
inductive Mode where
  | strict
  | lenient
  deriving DecidableEq, Repr

/-- `FCODE`, the failure class (10_state.md R26). The reserved code 3 has no constructor (U8). -/
inductive FailCode where
  | noFailure
  | invalidWordCount
  | checksumMismatch
  deriving DecidableEq, Repr

/-- The four protocol errors (60_exceptions.md R171). -/
inductive ProtocolError where
  /-- `E_ILLEGAL`: the word is not a command. -/
  | illegal
  /-- `E_PHASE`: `PUSH` or `FIN` outside phase ACCUM. -/
  | phase
  /-- `E_NOTREADY`: `RDB` outside phase OK. -/
  | notReady
  /-- `E_RANGE`: `RDB n` with n at or above OLEN. -/
  | range
  deriving DecidableEq, Repr

/-- The response to one command (30_encoding.md R76): ERR and the 16-bit DATA. -/
structure Response where
  err  : Bool
  data : DataWord
  deriving DecidableEq, Repr

/-- What the host can give the block: a command word on the command port, or reset, an input separate from
that port (20_memory.md R58, 70_reset_and_hazards.md R190). -/
inductive HostInput where
  | command (w : CommandWord)
  | reset
  deriving DecidableEq, Repr

/-- The bit store: the Bit String as a sequence with a length, so that no stale bit can exist (10_state.md
R22). Equal stores are equal lists. -/
abbrev Memory := BitSeq

/-- The form every reachable store has: a multiple of 11 bits, at most BSCAP = 264 (10_state.md R22). -/
def Memory.wf (m : Memory) : Bool := m.length % 11 == 0 && decide (m.length ≤ Config.bscap)

/-- The state of one instance. Each of the first nine fields is a component of 10_state.md R20. -/
structure State where
  /-- `BS`, the Bit String (R22). -/
  bs    : Memory
  /-- `WCNT`, the saturating word count (R23). -/
  wcnt  : BitVec 8
  /-- `PHASE` (R24). -/
  phase : Phase
  /-- `FMODE` (R25). -/
  fmode : Mode
  /-- `FCODE` (R26). -/
  fcode : FailCode
  /-- `OLEN`, the number of readable output bytes (R27). -/
  olen  : BitVec 6
  /-- `CSGOT`, the extracted checksum (R28). -/
  csgot : Byte
  /-- `CSEXP`, the expected checksum (R29). -/
  csexp : Byte
  /-- `PERR`, the sticky protocol-error flag (R30). -/
  perr  : Bool
  /-- What the host has still to give, oldest first (R58, R195). DESIGN CHOICE, log 1; safe. -/
  inputs : List HostInput
  /-- The last response delivered, if any (R76). DESIGN CHOICE, log 2; safe. -/
  rsp   : Option Response
  deriving DecidableEq, Repr

/-- The block has no fault: "Nothing in the block is treated as `fault` or `stuck`"
(93_implementation_defined.md; 60_exceptions.md R177). The type has no constructor. DEDUCED, log 14; safe. -/
inductive Fault where
  deriving DecidableEq, Repr

/-- Why a step has no meaning. -/
inductive Refusal where
  /-- Raised by `exec` alone, for an instruction that is not modelled, named by its mnemonic. Safe. No arm
  of `exec` raises it: every command has its meaning. -/
  | notModelled (mnemonic : String)
  deriving DecidableEq, Repr

/-- What a command, and a step, answers. -/
abbrev Result := Host.Outcome State Fault Refusal

/-- The machine right after reset (10_state.md R37, 70_reset_and_hazards.md R190). The host has given
nothing yet and no response is standing (DESIGN CHOICE, log 1 and log 2; safe). -/
def State.reset : State where
  bs     := []
  wcnt   := 0
  phase  := .accum
  fmode  := .strict
  fcode  := .noFailure
  olen   := 0
  csgot  := 0
  csexp  := 0
  perr   := false
  inputs := []
  rsp    := none

end Sys2Proof.Machine
end

