-- ==== Sys2Proof/Machine/Operands.lean ====
section
/-! DEFINITION. Operand values and the bit-sequence arithmetic they enter: `bits_N`, `val`, `zext_16`,
`pack8` (00_scope.md R8 to R11), and what the operands of `PUSH` and `RDB` stand for (30_encoding.md R73). -/

namespace Sys2Proof.Machine

/-- `bits_N(v)`: the bits v[N-1], ..., v[0] as a sequence, most significant first (00_scope.md R9). -/
def bitsMsb {n : Nat} (v : BitVec n) : BitSeq := (List.range n).map fun j => v.getLsbD (n - 1 - j)

/-- `val(s)`: the unsigned number whose most significant bit is s[0] (00_scope.md R9). -/
def val (s : BitSeq) : Nat := s.foldl (fun acc b => 2 * acc + b.toNat) 0

/-- `zext_16(v)` (00_scope.md R8). -/
def zext16 {n : Nat} (v : BitVec n) : DataWord := v.setWidth 16

/-- `ceil(l / 8)`: the bytes that hold l bits (00_scope.md R10, R11). -/
def byteCount (l : Nat) : Nat := (l + 7) / 8

/-- Byte i of a packing: bit (7-j) is s[8i+j], or 0 beyond the end of s (00_scope.md R11). -/
def packByte (s : BitSeq) (i : Nat) : Byte :=
  BitVec.ofNat 8 (val ((List.range 8).map fun j => s.getD (8 * i + j) false))

/-- `pack8(s)`: 8 bits per byte, MSB first within each byte, the last byte padded with zeros on the right
(00_scope.md R11). -/
def pack8 (s : BitSeq) : List Byte := (List.range (byteCount s.length)).map (packByte s)

/-- The operand of `PUSH` as it enters the store: eleven bits, idx[10] first (40_accumulate.md R92). -/
def indexBits (idx : WordIndex) : BitSeq := bitsMsb idx

/-- The bits of a phrase: each index as eleven bits, in phrase order (20_memory.md R51, R52). -/
def phraseBits (idxs : List WordIndex) : BitSeq := idxs.flatMap indexBits

/-- The operand of `RDB` as a byte address of OUT (30_encoding.md R73). -/
def outAddress (n : OutAddr) : Nat := n.toNat

end Sys2Proof.Machine
end

