-- ==== Sys2Proof/Machine/Flags.lean ====
section
/-! DEFINITION. Codes, flags and the three read-only status words (10_state.md R24 to R31), and the
quantities of a finalise that depend on the word count alone (00_scope.md R5). -/

namespace Sys2Proof.Machine

/-- The code of `PHASE` (10_state.md R24). -/
def Phase.code : Phase → BitVec 2
  | .accum => 0
  | .ok    => 1
  | .fail  => 2

/-- The code of `FMODE` (10_state.md R25). -/
def Mode.code : Mode → BitVec 1
  | .strict  => 0
  | .lenient => 1

/-- The code of `FCODE` (10_state.md R26). -/
def FailCode.code : FailCode → BitVec 2
  | .noFailure        => 0
  | .invalidWordCount => 1
  | .checksumMismatch => 2

/-- The code of a protocol error, the DATA of a refusal (60_exceptions.md R171). -/
def ProtocolError.code : ProtocolError → DataWord
  | .illegal  => 1
  | .phase    => 2
  | .notReady => 3
  | .range    => 4

/-- The `STATUS` word: `{WCNT[7:0], 0b00, PERR, FMODE, FCODE[1:0], PHASE[1:0]}` (10_state.md R31,
43_readout.md R151). -/
def statusWord (s : State) : DataWord :=
  (s.wcnt ++ 0#2 ++ BitVec.ofBool s.perr ++ s.fmode.code ++ s.fcode.code ++ s.phase.code : BitVec (8 + 2 + 1 + 1 + 2 + 2))

/-- The `LEN` word: `{len(BS)[8:0], 0b0, OLEN[5:0]}` (10_state.md R31, 43_readout.md R153). -/
def lenWord (s : State) : DataWord :=
  (BitVec.ofNat 9 s.bs.length ++ 0#1 ++ s.olen : BitVec (9 + 1 + 6))

/-- The `CSUM` word: `{CSEXP[7:0], CSGOT[7:0]}` (10_state.md R31, 43_readout.md R154). -/
def csumWord (s : State) : DataWord := (s.csexp ++ s.csgot : BitVec (8 + 8))

/-- n ∈ `VALID_WC` (41_finalize.md R113). -/
def validWordCount (n : Nat) : Bool := Config.validWordCounts.contains n

/-- `ENT(n)` = 32·n/3, the length of the entropy segment in bits (00_scope.md R5). -/
def entBits (n : Nat) : Nat := 32 * n / 3

/-- `CS(n)` = n/3, the length of the checksum segment in bits (00_scope.md R5). -/
def csBits (n : Nat) : Nat := n / 3

/-- The readable length after a strict success, ENT(n)/8 (41_finalize.md R111). -/
def strictOlen (n : Nat) : BitVec 6 := BitVec.ofNat 6 (entBits n / 8)

/-- The readable length after a lenient success, ceil(11·n/8) (41_finalize.md R112). -/
def lenientOlen (n : Nat) : BitVec 6 := BitVec.ofNat 6 (byteCount (11 * n))

/-- The word counter after one more push: `min(WCNT + 1, WCNT_MAX)` (40_accumulate.md R92). -/
def nextCount (c : BitVec 8) : BitVec 8 := BitVec.ofNat 8 (min (c.toNat + 1) Config.wcntMax)

end Sys2Proof.Machine
end

