-- ==== Sys2Proof/Machine/Ops.lean ====
section
/-! DEFINITION. The named operations every command is made of: the bit store and its byte view
(20_memory.md), the response port, being refused (the block's trap entry, 60_exceptions.md R172), emptying
the block (40_accumulate.md R91), and what the host gives. -/

namespace Sys2Proof.Machine

/-- The block's only memory-write primitive: `BS <- BS ++ bits_11(idx)` (00_scope.md R10). -/
def Memory.append (m : Memory) (idx : WordIndex) : Memory := m ++ indexBits idx

/-- The position the next append starts at (20_memory.md R56). -/
def Memory.appendAt (m : Memory) : Nat := m.length

/-- The block's only memory-read primitive, `OutRead(n)` (20_memory.md R53). The rule defines it for
n < ceil(len(BS)/8); beyond that its formula gives 0 (DEDUCED, log 6; safe: no reachable state reads there). -/
def Memory.outRead (m : Memory) (n : Nat) : Byte := packByte m n

/-- The addresses `OutRead` is defined at (20_memory.md R53). -/
def Memory.backed (m : Memory) (n : Nat) : Bool := decide (n < byteCount m.length)

/-- The store after a `PUSH` at word count `c`: the bits are kept below `WMAX` words and discarded from
there on (40_accumulate.md R92, R93). -/
def storeIndex (idx : WordIndex) (s : State) : State :=
  if s.wcnt.toNat < Config.wmax then { s with bs := s.bs.append idx } else s

/-- The count after a `PUSH` (40_accumulate.md R92). -/
def countPush (s : State) : State := { s with wcnt := nextCount s.wcnt }

/-- `respond(DATA)`: the command completes with the response (0, DATA) (00_scope.md R10, 30_encoding.md R76). -/
def respond (data : DataWord) (s : State) : State := { s with rsp := some ⟨false, data⟩ }

/-- `raise <Err>`: no state changes except `PERR <- 1`, and the response is (1, code) (60_exceptions.md R172).
Nothing is saved and control goes nowhere, so there is no return from it (R173). -/
def raise (e : ProtocolError) (s : State) : State := { s with perr := true, rsp := some ⟨true, e.code⟩ }

/-- Every component at its reset value, the two ports left alone (40_accumulate.md R91). -/
def clearAll (s : State) : State :=
  { s with bs := [], wcnt := 0, phase := .accum, fmode := .strict, fcode := .noFailure, olen := 0,
           csgot := 0, csexp := 0, perr := false }

/-- The host input at the head of the queue is taken (20_memory.md R58: one command at a time). -/
def takeInput (s : State) : State := { s with inputs := s.inputs.tail }

/-- Reset is asserted: the reset state, whatever the state was; no response is produced, and what the host
gives afterwards is untouched (70_reset_and_hazards.md R190, R192; DESIGN CHOICE, log 3; safe). -/
def applyReset (s : State) : State := { State.reset with inputs := s.inputs }

/-- A word that is not a command is refused with `E_ILLEGAL` in every phase (30_encoding.md R74). -/
def refuseIllegal (s : State) : Result := .next (raise .illegal s)

/-- Nothing is pending: the block waits and nothing changes (DESIGN CHOICE, log 1; safe). -/
def idle (s : State) : Result := .next s

/-- The readable bytes of OUT as (address, byte) cells, addresses rising (20_memory.md R61). A view, not
state. -/
def outCells (s : State) : List Host.Cell :=
  if s.phase = .ok then (List.range s.olen.toNat).map fun n => (n, s.bs.outRead n) else []

end Sys2Proof.Machine
end

