-- ==== Sys2Proof/Machine/Accumulate.lean ====
section
/-! DEFINITION. The accumulation commands `CLR` and `PUSH` (40_accumulate.md). -/

namespace Sys2Proof.Machine

/-- `CLR` (40_accumulate.md R91). -/
def execClr (s : State) : Result := .next (respond 0 (clearAll s))

/-- What an accepted `PUSH idx` leaves (40_accumulate.md R92, R93). -/
def pushed (idx : WordIndex) (s : State) : State := countPush (storeIndex idx s)

/-- `PUSH idx` (40_accumulate.md R92, R93). -/
def execPush (idx : WordIndex) (s : State) : Result :=
  if s.phase = .accum then
    .next (respond (zext16 (pushed idx s).wcnt) (pushed idx s))
  else .next (raise .phase s)

end Sys2Proof.Machine
end

