-- ==== Sys2Proof/Machine/Sha256.lean ====
section
/-! DEFINITION. The digest function `SHA256` of `FIN.S` (42_sha256.md R130 to R137). PRESUMED, log 5: the spec
itself marks the algorithm as general knowledge (93_implementation_defined.md G1); unsafe if a constant is wrong. -/

namespace Sys2Proof.Machine.Sha256

/-- `ROTR(x, k)`, 0 < k < 32 (42_sha256.md R131). -/
def rotr (x : Word32) (k : Nat) : Word32 := (x >>> k) ||| (x <<< (32 - k))

/-- `Ch(x, y, z)` (R131). -/
def ch (x y z : Word32) : Word32 := (x &&& y) ^^^ (~~~x &&& z)

/-- `Maj(x, y, z)` (R131). -/
def maj (x y z : Word32) : Word32 := (x &&& y) ^^^ (x &&& z) ^^^ (y &&& z)

/-- `BSIG0(x)` (R131). -/
def bsig0 (x : Word32) : Word32 := rotr x 2 ^^^ rotr x 13 ^^^ rotr x 22

/-- `BSIG1(x)` (R131). -/
def bsig1 (x : Word32) : Word32 := rotr x 6 ^^^ rotr x 11 ^^^ rotr x 25

/-- `SSIG0(x)` (R131). -/
def ssig0 (x : Word32) : Word32 := rotr x 7 ^^^ rotr x 18 ^^^ (x >>> 3)

/-- `SSIG1(x)` (R131). -/
def ssig1 (x : Word32) : Word32 := rotr x 17 ^^^ rotr x 19 ^^^ (x >>> 10)

/-- The eight words of a hash value, H[0..7], and the working variables a..h (R133, R136). -/
structure Work where
  a : Word32
  b : Word32
  c : Word32
  d : Word32
  e : Word32
  f : Word32
  g : Word32
  h : Word32
  deriving DecidableEq, Repr

/-- The initial hash value (R133). -/
def initial : Work :=
  ⟨0x6a09e667, 0xbb67ae85, 0x3c6ef372, 0xa54ff53a, 0x510e527f, 0x9b05688c, 0x1f83d9ab, 0x5be0cd19⟩

/-- The table of R134, line by line as the rule prints it: each line is one number of eight words, the first
word of the line most significant. -/
def constantLines : List (BitVec 256) :=
  [0x428a2f98_71374491_b5c0fbcf_e9b5dba5_3956c25b_59f111f1_923f82a4_ab1c5ed5,
   0xd807aa98_12835b01_243185be_550c7dc3_72be5d74_80deb1fe_9bdc06a7_c19bf174,
   0xe49b69c1_efbe4786_0fc19dc6_240ca1cc_2de92c6f_4a7484aa_5cb0a9dc_76f988da,
   0x983e5152_a831c66d_b00327c8_bf597fc7_c6e00bf3_d5a79147_06ca6351_14292967,
   0x27b70a85_2e1b2138_4d2c6dfc_53380d13_650a7354_766a0abb_81c2c92e_92722c85,
   0xa2bfe8a1_a81a664b_c24b8b70_c76c51a3_d192e819_d6990624_f40e3585_106aa070,
   0x19a4c116_1e376c08_2748774c_34b0bcb5_391c0cb3_4ed8aa4a_5b9cca4f_682e6ff3,
   0x748f82ee_78a5636f_84c87814_8cc70208_90befffa_a4506ceb_bef9a3f7_c67178f2]

/-- Word `j` of a table line, counted from its left. -/
def lineWord (line : BitVec 256) (j : Nat) : Word32 := line.extractLsb' (32 * (7 - j)) 32

/-- The round constants K[0..63] (R134): K[8i + j] is word `j` of line `i`. -/
def roundConstants : List Word32 := constantLines.flatMap fun line => (List.range 8).map (lineWord line)

/-- The message length in bits as eight bytes, most significant first (R132; the rule asks l < 2^64, log 16). -/
def lengthBytes (l : Nat) : List Byte :=
  (List.range 8).map fun j => (BitVec.ofNat 64 l).extractLsb' (8 * (7 - j)) 8

/-- The least number of zero bytes with L + 1 + z ≡ 56 modulo 64 (R132). -/
def zeroCount (len : Nat) : Nat := (119 - len % 64) % 64

/-- The padded message (R132). -/
def pad (m : List Byte) : List Byte :=
  m ++ [0x80] ++ List.replicate (zeroCount m.length) 0 ++ lengthBytes (8 * m.length)

/-- Word t of a block: bytes 4t..4t+3, byte 4t most significant (R132, 20_memory.md R62). -/
def blockWord (block : List Byte) (t : Nat) : Word32 :=
  (block.getD (4 * t) 0 ++ block.getD (4 * t + 1) 0 ++ block.getD (4 * t + 2) 0 ++ block.getD (4 * t + 3) 0 :
    BitVec (8 + 8 + 8 + 8))

/-- M_i[0..15] (R132). -/
def blockWords (block : List Byte) : List Word32 := (List.range 16).map (blockWord block)

/-- `k` more words of the schedule. The list is newest first: W[t-j] is its element j-1 (R135). -/
def extend : Nat → List Word32 → List Word32
  | 0, w => w
  | k + 1, w => extend k ((ssig1 (w.getD 1 0) + w.getD 6 0 + ssig0 (w.getD 14 0) + w.getD 15 0) :: w)

/-- The message schedule W[0..63] (R135). -/
def schedule (block : List Byte) : List Word32 := (extend 48 (blockWords block).reverse).reverse

/-- One round of the compression with K[t] and W[t] (R136). -/
def round (s : Work) (kw : Word32 × Word32) : Work :=
  let t1 := s.h + bsig1 s.e + ch s.e s.f s.g + kw.1 + kw.2
  let t2 := bsig0 s.a + maj s.a s.b s.c
  { a := t1 + t2, b := s.a, c := s.b, d := s.c, e := s.d + t1, f := s.e, g := s.f, h := s.g }

/-- The hash value after one block (R136). -/
def compress (hv : Work) (block : List Byte) : Work :=
  let v := (roundConstants.zip (schedule block)).foldl round hv
  { a := hv.a + v.a, b := hv.b + v.b, c := hv.c + v.c, d := hv.d + v.d,
    e := hv.e + v.e, f := hv.f + v.f, g := hv.g + v.g, h := hv.h + v.h }

/-- The first `k` blocks of 64 bytes, in order (R132). -/
def blocks : Nat → List Byte → List (List Byte)
  | 0, _ => []
  | k + 1, m => m.take 64 :: blocks k (m.drop 64)

/-- The hash value after the last block (R136). -/
def hashValue (m : List Byte) : Work := (blocks ((pad m).length / 64) (pad m)).foldl compress initial

/-- A word as four bytes, most significant first (R137). -/
def wordBytes (x : Word32) : List Byte :=
  [x.extractLsb' 24 8, x.extractLsb' 16 8, x.extractLsb' 8 8, x.extractLsb' 0 8]

/-- The digest of a hash value (R137). -/
def Work.bytes (v : Work) : List Byte :=
  wordBytes v.a ++ wordBytes v.b ++ wordBytes v.c ++ wordBytes v.d ++
  wordBytes v.e ++ wordBytes v.f ++ wordBytes v.g ++ wordBytes v.h

/-- `SHA256(m)`: from a byte sequence to a 32-byte sequence (R130, R137). -/
def digest (m : List Byte) : List Byte := (hashValue m).bytes

/-- `D[0]`, the only digest byte the block uses (R130, R137). -/
def digestByte0 (m : List Byte) : Byte := (digest m).getD 0 0

end Sys2Proof.Machine.Sha256
end

