-- ==== Sys2Proof/Machine/Finalise.lean ====
section
/-! DEFINITION. The finalise commands `FIN.S` and `FIN.L` (41_finalize.md). -/

namespace Sys2Proof.Machine

/-- The Entropy Buffer `E = pack8(BS[0 .. ENT(n)-1])` (41_finalize.md R111, R114). -/
def entropyBytes (n : Nat) (m : Memory) : List Byte := pack8 (m.take (entBits n))

/-- The checksum segment `BS[ENT(n) .. ENT(n)+CS(n)-1]` (41_finalize.md R114). -/
def checksumSegment (n : Nat) (m : Memory) : BitSeq := (m.drop (entBits n)).take (csBits n)

/-- The value latched in `CSGOT` (41_finalize.md R111, 10_state.md R28). -/
def checksumGot (n : Nat) (m : Memory) : Byte := BitVec.ofNat 8 (val (checksumSegment n m))

/-- The value latched in `CSEXP`: `D[0] >> (8 - cs)` (41_finalize.md R111, 10_state.md R29). -/
def checksumExpected (n : Nat) (m : Memory) : Byte :=
  Sha256.digestByte0 (entropyBytes n m) >>> (8 - csBits n)

/-- The outcome `InvalidWordCount` of a finalise in mode `mode` (41_finalize.md R113): `CSGOT` and `CSEXP`
keep their values. -/
def failCount (mode : Mode) (s : State) : State :=
  { s with fmode := mode, phase := .fail, fcode := .invalidWordCount, olen := 0 }

/-- Both checksum values are latched, on match and on mismatch alike (41_finalize.md R111). -/
def latchChecksums (n : Nat) (s : State) : State :=
  { s with csexp := checksumExpected n s.bs, csgot := checksumGot n s.bs }

/-- A successful finalise with `len` readable bytes (41_finalize.md R111, R112). -/
def succeed (mode : Mode) (len : BitVec 6) (s : State) : State :=
  { s with fmode := mode, phase := .ok, fcode := .noFailure, olen := len }

/-- The outcome `ChecksumMismatch` (41_finalize.md R111). -/
def failChecksum (s : State) : State :=
  { s with fmode := .strict, phase := .fail, fcode := .checksumMismatch, olen := 0 }

/-- The strict compare, once both values are latched: equality of two unsigned numbers (41_finalize.md R115). -/
def compareChecksums (n : Nat) (s : State) : State :=
  if s.csgot = s.csexp then succeed .strict (strictOlen n) s else failChecksum s

/-- What an accepted `FIN.S` leaves (41_finalize.md R111). -/
def finalisedStrict (s : State) : State :=
  if validWordCount s.wcnt.toNat then compareChecksums s.wcnt.toNat (latchChecksums s.wcnt.toNat s)
  else failCount .strict s

/-- What an accepted `FIN.L` leaves (41_finalize.md R112). -/
def finalisedLenient (s : State) : State :=
  if validWordCount s.wcnt.toNat then succeed .lenient (lenientOlen s.wcnt.toNat) s
  else failCount .lenient s

/-- `FIN.S` (41_finalize.md R111). -/
def execFinS (s : State) : Result :=
  if s.phase = .accum then .next (respond (statusWord (finalisedStrict s)) (finalisedStrict s))
  else .next (raise .phase s)

/-- `FIN.L` (41_finalize.md R112). -/
def execFinL (s : State) : Result :=
  if s.phase = .accum then .next (respond (statusWord (finalisedLenient s)) (finalisedLenient s))
  else .next (raise .phase s)

end Sys2Proof.Machine
end

