-- ==== Sys2Proof/Machine/Readout.lean ====
section
/-! DEFINITION. The read-out commands `STAT`, `RDL`, `RDC` and `RDB` (43_readout.md). -/

namespace Sys2Proof.Machine

/-- `STAT` (43_readout.md R151). -/
def execStat (s : State) : Result := .next (respond (statusWord s) s)

/-- `RDL` (43_readout.md R153). -/
def execRdl (s : State) : Result := .next (respond (lenWord s) s)

/-- `RDC` (43_readout.md R154). -/
def execRdc (s : State) : Result := .next (respond (csumWord s) s)

/-- `RDB n`: the phase is tested first, then the range (43_readout.md R156). -/
def execRdb (n : OutAddr) (s : State) : Result :=
  if s.phase = .ok then
    if outAddress n < s.olen.toNat then .next (respond (zext16 (s.bs.outRead (outAddress n))) s)
    else .next (raise .range s)
  else .next (raise .notReady s)

end Sys2Proof.Machine
end

