-- ==== Sys2Proof/Machine/Dispatch.lean ====
section
/-! DEFINITION. The dispatch: one arm per command, each one call of its meaning. -/

namespace Sys2Proof.Machine

def exec (i : Instr) (s : State) : Host.Outcome State Fault Refusal :=
  match i with
  | .stat => Sys2Proof.Machine.execStat s
  | .clr => Sys2Proof.Machine.execClr s
  | .push idx => Sys2Proof.Machine.execPush idx s
  | .finS => Sys2Proof.Machine.execFinS s
  | .finL => Sys2Proof.Machine.execFinL s
  | .rdb n => Sys2Proof.Machine.execRdb n s
  | .rdl => Sys2Proof.Machine.execRdl s
  | .rdc => Sys2Proof.Machine.execRdc s

end Sys2Proof.Machine
end

