-- ==== Sys2Proof/Machine/Step.lean ====
section
/-! DEFINITION. One step: the block takes the next input of its host (20_memory.md R58). -/

namespace Sys2Proof.Machine

/-- A command word in a state whose input is already taken: it is decoded and run, or refused as illegal
(30_encoding.md R74, R75). -/
def issue (w : CommandWord) (s : State) : Host.Outcome State Fault Refusal :=
  match decode w with
  | .command i => exec i s
  | .illegal _ => refuseIllegal s

/-- One step: the oldest pending input is taken and performed completely (20_memory.md R58,
70_reset_and_hazards.md R190). With none pending the block waits (log 1). -/
def step (s : State) : Host.Outcome State Fault Refusal :=
  match s.inputs with
  | [] => idle s
  | .reset :: _ => .next (applyReset (takeInput s))
  | .command w :: _ => issue w (takeInput s)

/-- The host gives this word next (log 4). -/
def State.withFetchWord (s : State) (nbits w : Nat) : State :=
  { s with inputs := .command (tableWord nbits w) :: s.inputs }

end Sys2Proof.Machine
end

