-- ==== Sys2Proof/Machine/Accumulator.lean ====
section
/-! DEFINITION. The accumulator view of the bit store (10_state.md R32) and the streaming form that an
implementation may hold in its place (40_accumulate.md R94). Both are views, not state (R35). -/

namespace Sys2Proof.Machine

/-- The registers `BUF`, `ACC`, `NB` (10_state.md R32). -/
structure Accumulator where
  buf : List Byte
  acc : Nat
  nb  : Nat
  deriving DecidableEq, Repr

/-- `NBYTES`: the number of complete bytes (10_state.md R32). -/
def Memory.nbytes (m : Memory) : Nat := m.length / 8

/-- The accumulator view of a bit store (10_state.md R32). -/
def Memory.accumulator (m : Memory) : Accumulator where
  buf := (List.range m.nbytes).map fun i => BitVec.ofNat 8 (val ((m.drop (8 * i)).take 8))
  acc := val (m.drop (8 * m.nbytes))
  nb  := m.length % 8

/-- The while loop of 40_accumulate.md R94, on fuel: each turn moves the leading eight of the `tn` bits of
`t` to the buffer. -/
def drain : Nat → List Byte → Nat → Nat → Accumulator
  | 0, buf, t, tn => ⟨buf, t, tn⟩
  | k + 1, buf, t, tn =>
    if 8 ≤ tn then
      drain k (buf ++ [BitVec.ofNat 8 ((t >>> (tn - 8)) &&& 0xFF)]) (t &&& ((1 <<< (tn - 8)) - 1)) (tn - 8)
    else ⟨buf, t, tn⟩

/-- An accepted, stored `PUSH idx` in the streaming form (40_accumulate.md R94). -/
def Accumulator.push (a : Accumulator) (idx : WordIndex) : Accumulator :=
  drain (a.nb + 11) a.buf ((a.acc <<< 11) ||| idx.toNat) (a.nb + 11)

/-- The padded trailing byte, when bits are waiting (40_accumulate.md R94, 10_state.md R32). -/
def Accumulator.trailing (a : Accumulator) : List Byte :=
  if 0 < a.nb then [BitVec.ofNat 8 (a.acc <<< (8 - a.nb))] else []

end Sys2Proof.Machine
end

