-- ==== Sys2Proof/Machine/Assembler.lean ====
section
/-! DEFINITION. The textual form of command sequences (30_encoding.md R78) and the pseudo-commands (R79). It
is notation for programs; no rule of the block depends on it. Text is a list of characters. -/

namespace Sys2Proof.Machine

/-- The spelling of a mnemonic, upper case (30_encoding.md R72, R78). -/
def mnemonicText : Mnemonic → List Char
  | .STAT => ['S', 'T', 'A', 'T']
  | .CLR  => ['C', 'L', 'R']
  | .PUSH => ['P', 'U', 'S', 'H']
  | .FINS => ['F', 'I', 'N', '.', 'S']
  | .FINL => ['F', 'I', 'N', '.', 'L']
  | .RDB  => ['R', 'D', 'B']
  | .RDL  => ['R', 'D', 'L']
  | .RDC  => ['R', 'D', 'C']

/-- The mnemonic a token spells, if any. -/
def parseMnemonic (t : List Char) : Option Mnemonic :=
  [Mnemonic.STAT, .CLR, .PUSH, .FINS, .FINL, .RDB, .RDL, .RDC].find? fun m => mnemonicText m == t

/-- The value of a digit in a base up to 16; both cases of a hexadecimal digit (DESIGN CHOICE, log 13; safe). -/
def digitValue (base : Nat) (c : Char) : Option Nat :=
  let k := c.toNat
  let d := if 48 ≤ k ∧ k ≤ 57 then k - 48 else if 65 ≤ k ∧ k ≤ 70 then k - 55
    else if 97 ≤ k ∧ k ≤ 102 then k - 87 else 16
  if d < base then some d else none

/-- The number a digit string stands for, after `acc`. -/
def digitsValue (base : Nat) : Nat → List Char → Option Nat
  | acc, [] => some acc
  | acc, c :: cs => (digitValue base c).bind fun d => digitsValue base (base * acc + d) cs

/-- An unsigned number, decimal or hexadecimal with `0x` (30_encoding.md R78). -/
def parseNumber : List Char → Option Nat
  | [] => none
  | '0' :: 'x' :: [] => none
  | '0' :: 'x' :: cs => digitsValue 16 0 cs
  | cs => digitsValue 10 0 cs

/-- The part of a line before its comment (30_encoding.md R78). -/
def stripComment (line : List Char) : List Char := line.takeWhile (· != ';')

/-- The tokens of a line, separated by one or more spaces; `cur` is the token being read, reversed.
Spaces at either end of a line are ignored (DESIGN CHOICE, log 13; safe). -/
def tokens : List Char → List Char → List (List Char)
  | cur, [] => if cur.isEmpty then [] else [cur.reverse]
  | cur, c :: cs =>
    if c = ' ' then (if cur.isEmpty then tokens [] cs else cur.reverse :: tokens [] cs)
    else tokens (c :: cur) cs

/-- Why a line is not a command (30_encoding.md R78). -/
inductive LineError where
  | unknownMnemonic
  | badNumber
  | tooManyOperands
  | source (e : SourceError)
  deriving DecidableEq, Repr

/-- What a line of text is. -/
inductive Line where
  | blank
  | command (i : Instr)
  | error (e : LineError)
  deriving DecidableEq, Repr

/-- The command of a source that R78 accepts, its error otherwise. -/
def sourceLine (c : Source) : Line :=
  match c.problem, c.toInstr with
  | none, some i => .command i
  | some e, _    => .error (.source e)
  | none, none   => .error .unknownMnemonic

/-- One line of assembler text (30_encoding.md R78). -/
def parseLine (line : List Char) : Line :=
  match tokens [] (stripComment line) with
  | [] => .blank
  | m :: ops =>
    match parseMnemonic m, ops with
    | none, _ => .error .unknownMnemonic
    | some k, [] => sourceLine ⟨k, none⟩
    | some k, [op] => match parseNumber op with
      | some v => sourceLine ⟨k, some v⟩
      | none => .error .badNumber
    | some _, _ :: _ :: _ => .error .tooManyOperands

/-- The command words of a text, line by line (30_encoding.md R78). A text with a line in error has no words at
all: R78 calls the line an error and does not speak of the other lines (DESIGN CHOICE, log 20; safe). -/
def assemble : List (List Char) → Option (List CommandWord)
  | [] => some []
  | l :: ls => match parseLine l with
    | .blank => assemble ls
    | .command i => (assemble ls).map (encode i :: ·)
    | .error _ => none

/-- One hexadecimal digit, upper case. -/
def hexDigit (v : Nat) : Char := if v < 10 then Char.ofNat (48 + v) else Char.ofNat (55 + v)

/-- A 16-bit word as `0x` and four digits (30_encoding.md R78). -/
def hexWord (w : BitVec 16) : List Char :=
  ['0', 'x', hexDigit (w.extractLsb' 12 4).toNat, hexDigit (w.extractLsb' 8 4).toNat,
   hexDigit (w.extractLsb' 4 4).toNat, hexDigit (w.extractLsb' 0 4).toNat]

/-- A command as text, its operand in decimal: R78 reads decimal and hexadecimal operands and does not say
which a listing line prints (DESIGN CHOICE, log 21; safe). -/
def instrText (i : Instr) : List Char :=
  mnemonicText i.source.mnemonic ++ match i.source.operand with
    | none => []
    | some k => ' ' :: Nat.toDigits 10 k

/-- A listing line, its operand in decimal (log 21): `<hex word>  <mnemonic> [operand]  -> <ERR>:<hex DATA>` (30_encoding.md R78). -/
def listingLine (i : Instr) (r : Response) : List Char :=
  hexWord (encode i) ++ [' ', ' '] ++ instrText i ++ [' ', ' ', '-', '>', ' ', if r.err then '1' else '0', ':'] ++
    hexWord r.data

/-- The pseudo-commands (30_encoding.md R79). -/
inductive Pseudo where
  | pushN (idxs : List WordIndex)
  | decodeS (idxs : List WordIndex)
  | decodeL (idxs : List WordIndex)
  | nop
  deriving DecidableEq, Repr

/-- The finalise command of a mode (41_finalize.md R110). -/
def finaliseInstr : Mode → Instr
  | .strict  => .finS
  | .lenient => .finL

/-- `CLR`, one `PUSH` per index in phrase order, one finalise: a phrase as 70_reset_and_hazards.md R194 asks
the host to give it. -/
def phraseInstrs (mode : Mode) (idxs : List WordIndex) : List Instr :=
  .clr :: (idxs.map .push ++ [finaliseInstr mode])

/-- The expansion of a pseudo-command (30_encoding.md R79). -/
def Pseudo.expand : Pseudo → List Instr
  | .pushN idxs   => idxs.map .push
  | .decodeS idxs => phraseInstrs .strict idxs
  | .decodeL idxs => phraseInstrs .lenient idxs
  | .nop          => [.stat]

/-- Commands as the host gives them. -/
def hostInputs (is : List Instr) : List HostInput := is.map fun i => .command (encode i)

end Sys2Proof.Machine
end

