-- ==== Sys2Proof/Machine/Outcome.lean ====
section
/-! DEFINITION. The Decoding Outcome the host reads from a state (43_readout.md R152, R157;
70_reset_and_hazards.md R198), and the source's function `decode(phrase, mode)` on word indices, which the
block implements (41_finalize.md; 00_scope.md R3). -/

namespace Sys2Proof.Machine

/-- The Decoding Outcome (00_scope.md R13, 43_readout.md R152). -/
inductive DecodingOutcome where
  /-- None yet: the decode call is open, `n` indices pushed so far. -/
  | pending (n : Nat)
  /-- A successful Entropy Buffer, checksum validated in strict mode only. -/
  | success (mode : Mode) (bytes : List Byte)
  /-- `InvalidWordCount(n)`. -/
  | invalidWordCount (n : Nat)
  /-- `ChecksumMismatch`. -/
  | checksumMismatch
  deriving DecidableEq, Repr

/-- The readable bytes in address order (43_readout.md R157). -/
def readableBytes (s : State) : List Byte := (List.range s.olen.toNat).map s.bs.outRead

/-- The rows of the table of 43_readout.md R152; a combination that no row has is no outcome (log 15). -/
def outcome (s : State) : Option DecodingOutcome :=
  match s.phase, s.fcode, s.fmode with
  | .accum, .noFailure, .strict      => some (.pending s.wcnt.toNat)
  | .ok, .noFailure, mode            => some (.success mode (readableBytes s))
  | .fail, .invalidWordCount, _      => some (.invalidWordCount s.wcnt.toNat)
  | .fail, .checksumMismatch, .strict => some .checksumMismatch
  | _, _, _                          => none

/-- The first CS(n) bits of SHA-256 of a byte sequence, as bits (41_finalize.md R115, 00_scope.md R9). -/
def leadingDigestBits (n : Nat) (e : List Byte) : BitSeq :=
  ((Sha256.digest e).flatMap bitsMsb).take (csBits n)

/-- The source's `decode(phrase, mode)` from word lookup on: validate the count, pack, and in strict mode
split, hash and compare bit sequences (00_scope.md R3 items 3 to 6). -/
def referenceDecode (mode : Mode) (idxs : List WordIndex) : DecodingOutcome :=
  if validWordCount idxs.length then
    match mode with
    | .lenient => .success .lenient (pack8 (phraseBits idxs))
    | .strict =>
      if (phraseBits idxs).drop (entBits idxs.length) =
          leadingDigestBits idxs.length (pack8 ((phraseBits idxs).take (entBits idxs.length))) then
        .success .strict (pack8 ((phraseBits idxs).take (entBits idxs.length)))
      else .checksumMismatch
  else .invalidWordCount idxs.length

/-- What the block can report of an outcome: the count saturates at 255, meaning 255 or more
(10_state.md R23, log 19). -/
def DecodingOutcome.asReported : DecodingOutcome → DecodingOutcome
  | .invalidWordCount n => .invalidWordCount (min n Config.wcntMax)
  | o => o

end Sys2Proof.Machine
end

