-- ==== Sys2Proof/Safety.lean ====
section
/-! DEFINITION. The terms claims are stated in: runs, the invariants of 10_state.md R34 and R27 to R29, and
what it is for a command to be refused. -/

namespace Sys2Proof.Machine

/-- `k` steps (20_memory.md R58, 70_reset_and_hazards.md R198). -/
def run : Nat → State → Result
  | 0, s => .next s
  | k + 1, s => match step s with
    | .next t => run k t
    | .fault r => .fault r
    | .refused r => .refused r

/-- The response of one step from `s` to `t`: the one response of the command it took (30_encoding.md R76).
A step that takes no command has none: an idle step leaves the standing response where it is and does not list
it again (DESIGN CHOICE, log 1 and log 2; safe), and reset produces none (70_reset_and_hazards.md R192). -/
def stepResponse (s t : State) : List Response :=
  match s.inputs with
  | .command _ :: _ => t.rsp.toList
  | .reset :: _ => []
  | [] => []

/-- The responses of `k` steps in order, one for each command taken (30_encoding.md R76, 20_memory.md R58;
DESIGN CHOICE, log 1: idle steps add none). -/
def responses : Nat → State → List Response
  | 0, _ => []
  | k + 1, s => match step s with
    | .next t => stepResponse s t ++ responses k t
    | .fault _ => []
    | .refused _ => []

/-- The nine architectural components of two states agree (10_state.md R20); their ports may differ. -/
def SameComponents (s t : State) : Prop :=
  s.bs = t.bs ∧ s.wcnt = t.wcnt ∧ s.phase = t.phase ∧ s.fmode = t.fmode ∧ s.fcode = t.fcode ∧
    s.olen = t.olen ∧ s.csgot = t.csgot ∧ s.csexp = t.csexp ∧ s.perr = t.perr

/-- The invariant of 10_state.md R34, item by item. -/
structure StateInv (s : State) : Prop where
  /-- Item 1. -/
  length : s.bs.length = 11 * min s.wcnt.toNat Config.wmax
  /-- Item 2. -/
  codes : s.phase.code.toNat ≤ 2 ∧ s.fcode.code.toNat ≤ 2
  /-- Item 3. -/
  accum : s.phase = .accum →
    s.fmode = .strict ∧ s.fcode = .noFailure ∧ s.olen = 0 ∧ s.csgot = 0 ∧ s.csexp = 0
  /-- Item 4. -/
  ok : s.phase = .ok →
    s.fcode = .noFailure ∧ validWordCount s.wcnt.toNat = true ∧
    (s.fmode = .strict → s.olen.toNat = entBits s.wcnt.toNat / 8 ∧ s.csgot = s.csexp) ∧
    (s.fmode = .lenient → s.olen.toNat = byteCount (11 * s.wcnt.toNat) ∧ s.csgot = 0 ∧ s.csexp = 0)
  /-- Item 5. -/
  fail : s.phase = .fail →
    s.olen = 0 ∧ (s.fcode = .invalidWordCount ∨ s.fcode = .checksumMismatch) ∧
    (s.fcode = .invalidWordCount →
      validWordCount s.wcnt.toNat = false ∧ s.csgot = 0 ∧ s.csexp = 0) ∧
    (s.fcode = .checksumMismatch →
      s.fmode = .strict ∧ validWordCount s.wcnt.toNat = true ∧ s.csgot ≠ s.csexp)
  /-- Item 6. -/
  width : validWordCount s.wcnt.toNat = true →
    s.csgot.toNat < 2 ^ csBits s.wcnt.toNat ∧ s.csexp.toNat < 2 ^ csBits s.wcnt.toNat

/-- An accepted `FIN.S` with a valid word count has been performed and its phrase window is still open:
the situation in which `CSGOT` and `CSEXP` hold their values (10_state.md R28, R29). -/
def Hashed (s : State) : Prop :=
  s.phase ≠ .accum ∧ s.fmode = .strict ∧ validWordCount s.wcnt.toNat = true

/-- What `OLEN`, `CSGOT` and `CSEXP` hold in every situation (10_state.md R27, R28, R29). -/
structure Latched (s : State) : Prop where
  gotHashed : Hashed s → s.csgot = checksumGot s.wcnt.toNat s.bs
  expHashed : Hashed s → s.csexp = checksumExpected s.wcnt.toNat s.bs
  elsewhere : ¬ Hashed s → s.csgot = 0 ∧ s.csexp = 0
  olenStrict : s.phase = .ok → s.fmode = .strict → s.olen = strictOlen s.wcnt.toNat
  olenLenient : s.phase = .ok → s.fmode = .lenient → s.olen = lenientOlen s.wcnt.toNat
  olenElsewhere : s.phase ≠ .ok → s.olen = 0

/-- Everything but `PERR` and the ports agrees (60_exceptions.md R172). -/
def SameButPerr (s t : State) : Prop :=
  s.bs = t.bs ∧ s.wcnt = t.wcnt ∧ s.phase = t.phase ∧ s.fmode = t.fmode ∧ s.fcode = t.fcode ∧
    s.olen = t.olen ∧ s.csgot = t.csgot ∧ s.csexp = t.csexp

/-- Command words as the host gives them. -/
def wordInputs (ws : List CommandWord) : List HostInput := ws.map .command

/-- The indices of the accepted pushes among the words of a phrase window without `CLR`: those before the
first finalise (20_memory.md R52, 41_finalize.md R118). -/
def windowIndices : List CommandWord → List WordIndex
  | [] => []
  | w :: ws => match decode w with
    | .command (.push idx) => idx :: windowIndices ws
    | .command .finS => []
    | .command .finL => []
    | _ => windowIndices ws

/-- The command `i` is refused in `s` with the error `e` (60_exceptions.md R171). -/
def refusal (i : Instr) (s : State) : Option ProtocolError :=
  match i with
  | .push _ => if s.phase = .accum then none else some .phase
  | .finS   => if s.phase = .accum then none else some .phase
  | .finL   => if s.phase = .accum then none else some .phase
  | .rdb n  => if s.phase = .ok then (if outAddress n < s.olen.toNat then none else some .range) else some .notReady
  | .stat   => none
  | .clr    => none
  | .rdl    => none
  | .rdc    => none

/-- The event of a command word, in the priority of 60_exceptions.md R174. -/
def wordRefusal (w : CommandWord) (s : State) : Option ProtocolError :=
  match decode w with
  | .command i => refusal i s
  | .illegal _ => some .illegal

/-- The host owes the block that no command is refused (70_reset_and_hazards.md R194 item 5): `PERR` is a
whole phrase window's record of it (10_state.md R30). -/
def NoRefusalSeen (s : State) : Prop := s.perr = false

end Sys2Proof.Machine
end

