-- ==== Sys2Proof/Certificates/Slice0/Obligations.lean ====
section
/-! DEFINITION. The statements for the provers, rule by rule of spec/. -/

open Sys2Proof Sys2Proof.Machine

/-! ## Encoding -/

/-- 30_encoding.md R75: the encoder's values, decoding an encoded command, and a word is a command exactly
when it is that command's encoding. -/
def Obligations.DecodeInvertsEncode : Prop :=
  (∀ i, decode (encode i) = .command i) ∧
  (∀ w i, decode w = .command i ↔ w = encode i) ∧
  (∀ idx : WordIndex, (encode (.push idx)).toNat = 0x2000 + idx.toNat) ∧
  (∀ n : OutAddr, (encode (.rdb n)).toNat = 0x4000 + n.toNat) ∧
  encode .stat = 0x0000 ∧ encode .clr = 0x1000 ∧ encode .finS = 0x3000 ∧ encode .finL = 0x3001 ∧
  encode .rdl = 0x5000 ∧ encode .rdc = 0x6000

/-- 30_encoding.md R72: each row selects exactly the words that decode to its command, no word is selected
by two rows, and 2118 words are commands. -/
def Obligations.CommandMapIsExact : Prop :=
  (∀ r ∈ commandMap, ∀ w,
    r.selects w = true ↔ ∃ i : Instr, decode w = .command i ∧ i.source.mnemonic = r.mnemonic) ∧
  (∀ r ∈ commandMap, ∀ r' ∈ commandMap, ∀ w, r.selects w = true → r'.selects w = true → r = r') ∧
  (∃ ws : List CommandWord, ws.Nodup ∧ ws.length = 2118 ∧ ∀ w, w ∈ ws ↔ ∃ i, decode w = .command i)

/-- 30_encoding.md R74: which words match no row, and that such a word is refused with `E_ILLEGAL` in every
state, changing nothing but `PERR`. -/
def Obligations.IllegalWordsAreRefused : Prop :=
  (∀ w : CommandWord, (∀ r ∈ commandMap, r.selects w = false) ↔
    (7 ≤ (w.extractLsb' 12 4).toNat ∨
     ((w.extractLsb' 12 4 = 0x0 ∨ w.extractLsb' 12 4 = 0x1 ∨ w.extractLsb' 12 4 = 0x5 ∨ w.extractLsb' 12 4 = 0x6) ∧
        w.extractLsb' 0 12 ≠ 0) ∨
     (w.extractLsb' 12 4 = 0x2 ∧ w.getLsbD 11 = true) ∨
     (w.extractLsb' 12 4 = 0x3 ∧ w.extractLsb' 1 11 ≠ 0) ∨
     (w.extractLsb' 12 4 = 0x4 ∧ w.extractLsb' 6 6 ≠ 0))) ∧
  (∀ (s : State) (w : CommandWord) (rest : List HostInput), s.inputs = .command w :: rest →
    (∀ r ∈ commandMap, r.selects w = false) →
    step s = .next { s with inputs := rest, perr := true, rsp := some ⟨true, 1⟩ })

/-- Sample words of 95_test_vectors.md D-A, from the formats of 30_encoding.md R71. -/
def Obligations.SampleWordsDecode : Prop :=
  decode 0b0000000000000000 = .command .stat ∧
  decode 0b0001000000000000 = .command .clr ∧
  decode 0b0010000000000011 = .command (.push 3) ∧
  decode 0b0010011111111111 = .command (.push 2047) ∧
  decode 0b0011000000000000 = .command .finS ∧
  decode 0b0011000000000001 = .command .finL ∧
  decode 0b0100000000100000 = .command (.rdb 32) ∧
  decode 0b0101000000000000 = .command .rdl ∧
  decode 0b0110000000000000 = .command .rdc ∧
  decode 0b0010100000000000 = .illegal .indexBit11 ∧
  decode 0b0111000000000000 = .illegal .undefinedOp

/-- 30_encoding.md R78: a source is a command exactly when no check of R78 rejects it, and the text of every
command is read back as that command, with spaces and a comment around it too. The text of a command writes its
operand in decimal, and spaces at the end of a line are ignored, by the model's choice (log 21, log 13). -/
def Obligations.AssemblerReadsEveryCommandBack : Prop :=
  (∀ c : Source, c.wellFormed = true ↔ ∃ i : Instr, c.toInstr = some i ∧ i.source = c) ∧
  (∀ i : Instr, parseLine (instrText i) = .command i) ∧
  (∀ (i : Instr) (note : List Char), parseLine (instrText i ++ ' ' :: ';' :: note) = .command i)

/-- 30_encoding.md R79: the expansions, the words they stand for, and that `NOP` changes no component. -/
def Obligations.PseudoCommandsExpand : Prop :=
  (∀ idxs, (Pseudo.pushN idxs).expand = idxs.map Instr.push) ∧
  (∀ idxs, (Pseudo.decodeS idxs).expand = [.clr] ++ (Pseudo.pushN idxs).expand ++ [.finS]) ∧
  (∀ idxs, (Pseudo.decodeL idxs).expand = [.clr] ++ (Pseudo.pushN idxs).expand ++ [.finL]) ∧
  (∀ idxs, (Pseudo.decodeS idxs).expand.map encode =
    0x1000 :: (idxs.map fun idx => (0x2000 : CommandWord) + idx.setWidth 16) ++ [0x3000]) ∧
  (∀ idxs, (Pseudo.decodeL idxs).expand.map encode =
    0x1000 :: (idxs.map fun idx => (0x2000 : CommandWord) + idx.setWidth 16) ++ [0x3001]) ∧
  Pseudo.nop.expand = [.stat] ∧ (∀ s : State, ∃ t, exec .stat s = .next t ∧ SameComponents t s)

/-! ## Steps and reset -/

/-- A step with a command pending takes it and runs the decoded instruction on the state without it. -/
def Obligations.StepRunsTheDecodedCommand : Prop :=
  ∀ (s : State) (w : CommandWord) (rest : List HostInput) (i : Instr),
    s.inputs = .command w :: rest → decode w = .command i →
    step s = exec i { s with inputs := rest }

/-- The model's choice (log 1): with nothing pending the block waits. -/
def Obligations.IdleStepChangesNothing : Prop :=
  ∀ s : State, s.inputs = [] → step s = .next s

/-- 20_memory.md R58: a pending command is taken alone and the later ones stay in their order, a run is the
composition of its steps, and the effect and the response of a command depend on the nine components and the
command alone. -/
def Obligations.CommandsTakeEffectInIssueOrder : Prop :=
  (∀ (s : State) (w : CommandWord) (rest : List HostInput), s.inputs = .command w :: rest →
    ∃ t, step s = .next t ∧ t.inputs = rest) ∧
  (∀ (j k : Nat) (s t : State), run j s = .next t →
    run (j + k) s = run k t ∧ responses (j + k) s = responses j s ++ responses k t) ∧
  (∀ (s s' t t' : State) (w : CommandWord) (rest rest' : List HostInput),
    SameComponents s s' → s.inputs = .command w :: rest → s'.inputs = .command w :: rest' →
    step s = .next t → step s' = .next t' → SameComponents t t' ∧ t.rsp = t'.rsp)

/-- 60_exceptions.md R177: no command and no run gets stuck, and every command is answered. The first clause
is for every queue: that a step with nothing pending waits is the model's choice (log 1), and so is that a
reset is taken from the queue and keeps the later inputs (log 3). -/
def Obligations.RunsNeverGetStuck : Prop :=
  (∀ (k : Nat) (s : State), ∃ t, run k s = .next t ∧ t.inputs = s.inputs.drop k) ∧
  (∀ (ws : List CommandWord) (s : State) (rest : List HostInput), s.inputs = wordInputs ws ++ rest →
    (responses ws.length s).length = ws.length)

/-- 30_encoding.md R76: every command, legal or not, gets exactly one response; its DATA when accepted is the
command's result, and when refused the code of its error; a finalise that finds a classified outcome answers
ERR = 0. -/
def Obligations.EveryCommandGetsItsResponse : Prop :=
  ∀ (s : State) (w : CommandWord) (rest : List HostInput), s.inputs = .command w :: rest →
    ∃ (t : State) (r : Response), step s = .next t ∧ t.rsp = some r ∧
      (r.err = false → ∃ i, decode w = .command i ∧
        r.data = match i with
          | .stat => statusWord t
          | .clr => 0
          | .push _ => zext16 t.wcnt
          | .finS => statusWord t
          | .finL => statusWord t
          | .rdb n => zext16 (t.bs.outRead n.toNat)
          | .rdl => lenWord t
          | .rdc => csumWord t) ∧
      (r.err = true → ∃ e, wordRefusal w s = some e ∧
        r.data = match e with
          | .illegal => 1
          | .phase => 2
          | .notReady => 3
          | .range => 4) ∧
      (s.phase = .accum → decode w = .command .finS ∨ decode w = .command .finL → r.err = false)

/-- 10_state.md R37: the reset values, and the three derived words. -/
def Obligations.ResetValues : Prop :=
  State.reset.bs = [] ∧ State.reset.wcnt = 0 ∧ State.reset.phase = .accum ∧ State.reset.fmode = .strict ∧
  State.reset.fcode = .noFailure ∧ State.reset.olen = 0 ∧ State.reset.csgot = 0 ∧ State.reset.csexp = 0 ∧
  State.reset.perr = false ∧
  statusWord State.reset = 0x0000 ∧ lenWord State.reset = 0x0000 ∧ csumWord State.reset = 0x0000

/-- 70_reset_and_hazards.md R190: reset puts every component at its reset value whatever the state was, which
is the state that `CLR` leaves. Reset reaches the block as an input its step takes (log 3). -/
def Obligations.ResetReachesTheResetState : Prop :=
  ∀ (s : State) (rest : List HostInput), s.inputs = .reset :: rest →
    ∃ t, step s = .next t ∧
      t.bs = [] ∧ t.wcnt = 0 ∧ t.phase = .accum ∧ t.fmode = .strict ∧ t.fcode = .noFailure ∧ t.olen = 0 ∧
      t.csgot = 0 ∧ t.csexp = 0 ∧ t.perr = false ∧
      ∀ (u v : State), exec .clr u = .next v → SameComponents t v

/-- 70_reset_and_hazards.md, section 1, on reset during a command: reset placed before or after a command
gives the same state; only the command's response differs. The queue of inputs and the response port are the
model's (log 2, log 3). -/
def Obligations.ResetAbandonsTheCommand : Prop :=
  ∀ (s : State) (w : CommandWord) (rest : List HostInput), s.inputs = .command w :: .reset :: rest →
    ∃ u, run 2 s = .next u ∧ run 1 { s with inputs := .reset :: rest } = .next u ∧
      u = { State.reset with inputs := rest } ∧
      (responses 2 s).length = 1 ∧ responses 1 { s with inputs := .reset :: rest } = []

/-! ## Accumulation -/

/-- 40_accumulate.md R91: `CLR` is accepted in every state and leaves the reset state, and no other command
leaves phases OK and FAIL. -/
def Obligations.ClrRestoresTheResetState : Prop :=
  encode .clr = 0x1000 ∧
  ∀ s : State, exec .clr s = .next
    { bs := [], wcnt := 0, phase := .accum, fmode := .strict, fcode := .noFailure, olen := 0, csgot := 0,
      csexp := 0, perr := false, inputs := s.inputs, rsp := some ⟨false, 0⟩ } ∧
    (∀ t, exec .clr s = .next t → SameComponents t State.reset) ∧
    ∀ (t : State) (w : CommandWord) (rest : List HostInput), s.inputs = .command w :: rest → w ≠ 0x1000 →
      s.phase ≠ .accum → step s = .next t → t.phase = s.phase

/-- 40_accumulate.md R92: an accepted `PUSH` appends idx[10], ..., idx[0] and counts; outside ACCUM it is
refused. -/
def Obligations.PushAppendsOneIndex : Prop :=
  (∀ idx : WordIndex, (encode (.push idx)).toNat = 0x2000 + idx.toNat) ∧
  (∀ (idx : WordIndex) (s : State), s.phase ≠ .accum →
    exec (.push idx) s = .next { s with perr := true, rsp := some ⟨true, 2⟩ }) ∧
  (∀ (idx : WordIndex) (s : State), s.phase = .accum → s.wcnt.toNat < 24 →
    exec (.push idx) s = .next { s with
      bs := s.bs ++ (List.range 11).map (fun j => idx.getLsbD (10 - j))
      wcnt := BitVec.ofNat 8 (min (s.wcnt.toNat + 1) 255)
      rsp := some ⟨false, BitVec.ofNat 16 (min (s.wcnt.toNat + 1) 255)⟩ }) ∧
  (∀ (idx : WordIndex) (s : State), s.phase = .accum → 24 ≤ s.wcnt.toNat →
    exec (.push idx) s = .next { s with
      wcnt := BitVec.ofNat 8 (min (s.wcnt.toNat + 1) 255)
      rsp := some ⟨false, BitVec.ofNat 16 (min (s.wcnt.toNat + 1) 255)⟩ })

/-- 40_accumulate.md R93: a push into a full store is counted and its bits are discarded; from there on no
command but `CLR` brings the count back, every finalise ends in `InvalidWordCount`, after which no byte is
readable, and BLEN reads 264. -/
def Obligations.PushBeyondCapacityIsCountedOnly : Prop :=
  (∀ (idx : WordIndex) (s : State), StateInv s → s.phase = .accum → 24 ≤ s.wcnt.toNat →
    ∃ t, exec (.push idx) s = .next t ∧ t.bs = s.bs ∧ t.bs.length = 264 ∧
      t.wcnt.toNat = min (s.wcnt.toNat + 1) 255 ∧ t.rsp = some ⟨false, zext16 t.wcnt⟩ ∧
      t.phase = .accum ∧ 24 < t.wcnt.toNat ∧ (lenWord t).extractLsb' 7 9 = 264) ∧
  (∀ (s t : State) (w : CommandWord) (rest : List HostInput), 24 < s.wcnt.toNat →
    s.inputs = .command w :: rest → w ≠ 0x1000 → step s = .next t →
    24 < t.wcnt.toNat ∧ t.bs = s.bs ∧ s.wcnt.toNat ≤ t.wcnt.toNat) ∧
  (∀ (s : State) (i : Instr), 24 < s.wcnt.toNat → s.phase = .accum → (i = .finS ∨ i = .finL) →
    ∃ t, exec i s = .next t ∧ t.phase = .fail ∧ t.fcode = .invalidWordCount ∧
      ∀ n, exec (.rdb n) t = .next { t with perr := true, rsp := some ⟨true, 3⟩ })

/-- 20_memory.md R52, 10_state.md R22, R23: after any commands of a window but `CLR`, the Bit String is the
accepted indices in order, at most 24 of them, each MSB first, and WCNT their saturated number. -/
def Obligations.BitStringHoldsTheAcceptedIndices : Prop :=
  ∀ (ws : List CommandWord) (s : State) (rest : List HostInput),
    s.inputs = wordInputs ws ++ rest → (∀ w ∈ ws, w ≠ 0x1000) →
    s.phase = .accum → s.bs = [] → s.wcnt = 0 →
    ∃ t, run ws.length s = .next t ∧
      t.wcnt.toNat = min (windowIndices ws).length 255 ∧
      t.bs.length = 11 * min (windowIndices ws).length 24 ∧
      (∀ k j idx, k < 24 → j < 11 → (windowIndices ws)[k]? = some idx →
        t.bs[11 * k + j]? = some (idx.getLsbD (10 - j))) ∧
      (∀ p, p < t.bs.length → ∃ idx, (windowIndices ws)[p / 11]? = some idx ∧
        t.bs[p]? = some (idx.getLsbD (10 - p % 11)))

/-- What `PUSH` leaves unchanged: every component but BS and WCNT (and PERR when refused), and every byte
of OUT outside the bytes that the eleven bits at position len(BS) fall into. -/
def Obligations.PushFrame : Prop :=
  ∀ (idx : WordIndex) (s t : State), exec (.push idx) s = .next t →
    t.phase = s.phase ∧ t.fmode = s.fmode ∧ t.fcode = s.fcode ∧ t.olen = s.olen ∧
    t.csgot = s.csgot ∧ t.csexp = s.csexp ∧ t.inputs = s.inputs ∧
    (s.phase = .accum → t.perr = s.perr) ∧
    (s.phase ≠ .accum → t.bs = s.bs ∧ t.wcnt = s.wcnt ∧ t.perr = true) ∧
    (∀ p, p < s.bs.length → t.bs[p]? = s.bs[p]?) ∧
    (∀ a, (s.phase = .accum → s.wcnt.toNat < 24 →
        a < s.bs.appendAt / 8 ∨ byteCount (s.bs.appendAt + 11) ≤ a) →
      t.bs.outRead a = s.bs.outRead a)

/-! ## The byte view and the accumulator -/

/-- 20_memory.md R53 and 00_scope.md R11: each bit of each byte of `pack8`, and `OutRead(n)` is byte n. -/
def Obligations.OutReadPacksMsbFirst : Prop :=
  ∀ m : Memory, (pack8 m).length = (m.length + 7) / 8 ∧
    ∀ n, n < (m.length + 7) / 8 → (pack8 m)[n]? = some (m.outRead n) ∧
      ∀ j, j < 8 → (m.outRead n).getLsbD (7 - j) =
        if 8 * n + j < m.length then m.getD (8 * n + j) false else false

/-- 20_memory.md R54: an 8-bit read of data written 11 bits at a time. -/
def Obligations.MixedWidthRead : Prop :=
  (∀ (idxs : List WordIndex) (n j : Nat) (idx : WordIndex), j < 8 →
    idxs[(8 * n + j) / 11]? = some idx →
    (Memory.outRead (phraseBits idxs) n).getLsbD (7 - j) = idx.getLsbD (10 - (8 * n + j) % 11)) ∧
  (∀ (i0 i1 i2 : WordIndex) (more : List WordIndex),
    Memory.outRead (phraseBits (i0 :: i1 :: i2 :: more)) 0 = i0.extractLsb' 3 8 ∧
    Memory.outRead (phraseBits (i0 :: i1 :: i2 :: more)) 1 = (i0.extractLsb' 0 3 ++ i1.extractLsb' 6 5 : BitVec (3 + 5)) ∧
    Memory.outRead (phraseBits (i0 :: i1 :: i2 :: more)) 2 = (i1.extractLsb' 0 6 ++ i2.extractLsb' 9 2 : BitVec (6 + 2))) ∧
  (∀ (front back : List WordIndex) (n : Nat), front.length = 8 →
    Memory.outRead (phraseBits (front ++ back)) (11 + n) = Memory.outRead (phraseBits back) n) ∧
  (∀ n : Nat, (8 * n + 7) / 11 ≤ 8 * n / 11 + 1) ∧
  (∀ k : Nat, (11 * k + 10) / 8 = 11 * k / 8 + 1 ∨ (11 * k + 10) / 8 = 11 * k / 8 + 2)

/-- 10_state.md R32: the accumulator view spells the Bit String, and `pack8` is its bytes and the padded
trailing byte. -/
def Obligations.AccumulatorViewSpellsTheBitString : Prop :=
  ∀ m : Memory,
    m.accumulator.buf.length = m.length / 8 ∧ m.accumulator.nb = m.length % 8 ∧
    m.accumulator.acc < 2 ^ m.accumulator.nb ∧
    m = m.accumulator.buf.flatMap bitsMsb ++
      (List.range m.accumulator.nb).map (fun j => m.accumulator.acc.testBit (m.accumulator.nb - 1 - j)) ∧
    pack8 m = m.accumulator.buf ++
      (if 0 < m.accumulator.nb then [BitVec.ofNat 8 (m.accumulator.acc <<< (8 - m.accumulator.nb))] else [])

/-- 40_accumulate.md R94: the streaming form computes the same registers as the view, its counts after k
pushes, its trailing byte, and where the checksum segment stands at the five valid word counts. -/
def Obligations.StreamingFormAgrees : Prop :=
  (∀ (m : Memory) (idx : WordIndex),
    Memory.accumulator (m.append idx) = m.accumulator.push idx ∧
    (m.accumulator.push idx).nb = (m.accumulator.nb + 3) % 8) ∧
  (∀ idxs : List WordIndex,
    idxs.foldl Accumulator.push ⟨[], 0, 0⟩ = Memory.accumulator (phraseBits idxs) ∧
    (idxs.foldl Accumulator.push ⟨[], 0, 0⟩).buf.length = 11 * idxs.length / 8 ∧
    (idxs.foldl Accumulator.push ⟨[], 0, 0⟩).nb = 11 * idxs.length % 8) ∧
  (∀ m : Memory, pack8 m = m.accumulator.buf ++ m.accumulator.trailing) ∧
  (∀ (m : Memory) (n : Nat), n ∈ [12, 15, 18, 21] → m.length = 11 * n →
    m.accumulator.nb = csBits n ∧ m.accumulator.acc = val (checksumSegment n m)) ∧
  (∀ m : Memory, m.length = 264 → m.accumulator.nb = 0 ∧ m.accumulator.buf[32]? = some (checksumGot 24 m))

/-! ## Finalising -/

/-- 00_scope.md R5: the segment lengths at the five valid word counts, and that they make up the phrase. -/
def Obligations.SegmentLengths : Prop :=
  (∀ n : Nat, validWordCount n = true ↔ n = 12 ∨ n = 15 ∨ n = 18 ∨ n = 21 ∨ n = 24) ∧
  (∀ n : Nat, validWordCount n = true → 3 * entBits n = 32 * n ∧ 3 * csBits n = n ∧
    entBits n + csBits n = 11 * n ∧ entBits n % 8 = 0) ∧
  [12, 15, 18, 21, 24].map entBits = [128, 160, 192, 224, 256] ∧
  [12, 15, 18, 21, 24].map csBits = [4, 5, 6, 7, 8]

/-- 41_finalize.md R111: `FIN.S` in full: refused outside ACCUM, invalid count, match, mismatch. -/
def Obligations.StrictFinalise : Prop :=
  encode .finS = 0x3000 ∧
  (∀ s : State, s.phase ≠ .accum →
    exec .finS s = .next { s with perr := true, rsp := some ⟨true, 2⟩ }) ∧
  (∀ s : State, s.phase = .accum → s.wcnt.toNat ∉ [12, 15, 18, 21, 24] →
    ∃ t, exec .finS s = .next { t with rsp := some ⟨false, statusWord t⟩ } ∧
      t = { s with fmode := .strict, phase := .fail, fcode := .invalidWordCount, olen := 0 } ∧
      (StateInv s → t.csgot = 0 ∧ t.csexp = 0)) ∧
  (∀ (s : State) (n ent cs : Nat) (dgst : List Byte) (expd got : Byte), StateInv s → s.phase = .accum →
    s.wcnt.toNat = n → n ∈ [12, 15, 18, 21, 24] → ent = 32 * n / 3 → cs = n / 3 →
    dgst = Sha256.digest (pack8 (s.bs.take ent)) →
    expd = dgst.getD 0 0 >>> (8 - cs) →
    got.toNat = val ((s.bs.drop ent).take cs) →
    (got = expd → ∃ t, exec .finS s = .next { t with rsp := some ⟨false, statusWord t⟩ } ∧
      t = { s with fmode := .strict, csexp := expd, csgot := got, phase := .ok, fcode := .noFailure,
                   olen := BitVec.ofNat 6 (ent / 8) }) ∧
    (got ≠ expd → ∃ t, exec .finS s = .next { t with rsp := some ⟨false, statusWord t⟩ } ∧
      t = { s with fmode := .strict, csexp := expd, csgot := got, phase := .fail, fcode := .checksumMismatch,
                   olen := 0 }) ∧
    (n = 24 → expd = dgst.getD 0 0 ∧ got = s.bs.outRead 32))

/-- 41_finalize.md R112: `FIN.L` in full. -/
def Obligations.LenientFinalise : Prop :=
  encode .finL = 0x3001 ∧
  (∀ s : State, s.phase ≠ .accum →
    exec .finL s = .next { s with perr := true, rsp := some ⟨true, 2⟩ }) ∧
  (∀ s : State, s.phase = .accum → s.wcnt.toNat ∉ [12, 15, 18, 21, 24] →
    ∃ t, exec .finL s = .next { t with rsp := some ⟨false, statusWord t⟩ } ∧
      t = { s with fmode := .lenient, phase := .fail, fcode := .invalidWordCount, olen := 0 }) ∧
  (∀ s : State, s.phase = .accum → s.wcnt.toNat ∈ [12, 15, 18, 21, 24] →
    ∃ t, exec .finL s = .next { t with rsp := some ⟨false, statusWord t⟩ } ∧
      t = { s with fmode := .lenient, phase := .ok, fcode := .noFailure,
                   olen := BitVec.ofNat 6 ((11 * s.wcnt.toNat + 7) / 8) } ∧
      t.olen.toNat = (11 * s.wcnt.toNat + 7) / 8 ∧
      (StateInv s → t.csgot = 0 ∧ t.csexp = 0 ∧ readableBytes t = pack8 s.bs))

/-- 41_finalize.md R113: both finalise commands check the count first; a wrong count is never reported as
`ChecksumMismatch`, and it stays readable in STATUS[15:8]. -/
def Obligations.WordCountIsCheckedFirst : Prop :=
  ∀ (s t : State) (i : Instr) (mode : Mode), s.phase = .accum →
    (i = .finS ∧ mode = .strict ∨ i = .finL ∧ mode = .lenient) → exec i s = .next t →
    (s.wcnt.toNat ∉ [12, 15, 18, 21, 24] ↔ t.fcode = .invalidWordCount) ∧
    (s.wcnt.toNat ∉ [12, 15, 18, 21, 24] →
      t.phase = .fail ∧ t.olen = 0 ∧ t.fmode = mode ∧ t.csgot = s.csgot ∧ t.csexp = s.csexp ∧
      (StateInv s → t.csgot = 0 ∧ t.csexp = 0) ∧
      ∃ d, t.rsp = some ⟨false, d⟩ ∧ d.extractLsb' 8 8 = s.wcnt) ∧
    (t.fcode = .checksumMismatch → i = .finS ∧ s.wcnt.toNat ∈ [12, 15, 18, 21, 24])

/-- 41_finalize.md R114: the split of a phrase of n words. -/
def Obligations.SplitOfThePhrase : Prop :=
  ∀ (n : Nat) (m : Memory), validWordCount n = true → m.length = 11 * n →
    m.take (entBits n) ++ checksumSegment n m = m ∧ (checksumSegment n m).length = csBits n ∧
    entropyBytes n m = (List.range (entBits n / 8)).map m.outRead ∧
    checksumGot n m = m.outRead (entBits n / 8) >>> (8 - csBits n)

/-- 41_finalize.md R115 with 00_scope.md R9: CSEXP is the number spelled by the first CS(n) digest bits, and
comparing the two numbers is comparing the two bit sequences. -/
def Obligations.CompareIsOfLeadingDigestBits : Prop :=
  ∀ (n : Nat) (m : Memory), validWordCount n = true → m.length = 11 * n →
    (checksumExpected n m).toNat = val (((Sha256.digest (entropyBytes n m)).flatMap bitsMsb).take (csBits n)) ∧
    (checksumGot n m = checksumExpected n m ↔
      m.drop (entBits n) = ((Sha256.digest (entropyBytes n m)).flatMap bitsMsb).take (csBits n))

/-- What a finalise leaves unchanged: BS, WCNT and every byte of OUT; PERR when accepted; CSGOT and CSEXP
under `FIN.L` and under a refusal; all but PERR under a refusal (41_finalize.md R110 to R112). -/
def Obligations.FinaliseFrame : Prop :=
  ∀ (i : Instr) (s t : State), (i = .finS ∨ i = .finL) → exec i s = .next t →
    t.bs = s.bs ∧ t.wcnt = s.wcnt ∧ t.inputs = s.inputs ∧ (∀ a, t.bs.outRead a = s.bs.outRead a) ∧
    (s.phase = .accum → t.perr = s.perr ∧ (t.phase = .ok ∨ t.phase = .fail)) ∧
    (i = .finL → t.csgot = s.csgot ∧ t.csexp = s.csexp) ∧
    (s.phase ≠ .accum → SameButPerr t s ∧ t.perr = true)

/-- 41_finalize.md R118: the phase transitions, row by row. -/
def Obligations.PhaseTransitions : Prop :=
  (∀ (s t : State) (rest : List HostInput), s.inputs = .reset :: rest → step s = .next t → t.phase = .accum) ∧
  ∀ (s t : State) (w : CommandWord) (rest : List HostInput), s.inputs = .command w :: rest → step s = .next t →
    (decode w = .command .clr → t.phase = .accum) ∧
    (∀ idx, decode w = .command (.push idx) → s.phase = .accum → t.phase = .accum) ∧
    (decode w = .command .finS → s.phase = .accum → s.wcnt.toNat ∉ [12, 15, 18, 21, 24] →
      t.phase = .fail ∧ t.fcode.code = 1) ∧
    (decode w = .command .finS → s.phase = .accum → s.wcnt.toNat ∈ [12, 15, 18, 21, 24] →
      t.csgot ≠ t.csexp → t.phase = .fail ∧ t.fcode.code = 2) ∧
    (decode w = .command .finS → s.phase = .accum → s.wcnt.toNat ∈ [12, 15, 18, 21, 24] →
      t.csgot = t.csexp → t.phase = .ok) ∧
    (decode w = .command .finL → s.phase = .accum → s.wcnt.toNat ∉ [12, 15, 18, 21, 24] →
      t.phase = .fail ∧ t.fcode.code = 1) ∧
    (decode w = .command .finL → s.phase = .accum → s.wcnt.toNat ∈ [12, 15, 18, 21, 24] → t.phase = .ok) ∧
    ((∃ idx, decode w = .command (.push idx)) ∨ decode w = .command .finS ∨ decode w = .command .finL →
      s.phase ≠ .accum → t.phase = s.phase ∧ t.rsp = some ⟨true, 2⟩) ∧
    (decode w = .command .stat ∨ decode w = .command .rdl ∨ decode w = .command .rdc ∨
      (∃ n, decode w = .command (.rdb n)) ∨ (∃ e, decode w = .illegal e) → t.phase = s.phase)

/-- 41_finalize.md R116 item 1: the phrase built from an entropy of 4m bytes decodes strictly to it. -/
def Obligations.StrictRoundTrip : Prop :=
  ∀ (s : State) (rest : List HostInput) (e : List Byte) (m : Nat) (bits : BitSeq) (idxs : List WordIndex),
    m ∈ [4, 5, 6, 7, 8] → e.length = 4 * m →
    bits = e.flatMap bitsMsb ++ ((Sha256.digest e).flatMap bitsMsb).take m →
    idxs = (List.range (3 * m)).map (fun k => BitVec.ofNat 11 (val ((bits.drop (11 * k)).take 11))) →
    s.inputs = hostInputs (phraseInstrs .strict idxs) ++ rest →
    ∃ t, run (3 * m + 2) s = .next t ∧ t.phase = .ok ∧ t.olen.toNat = 4 * m ∧ NoRefusalSeen t ∧
      t.inputs = rest ∧ (∀ i, i < 4 * m → e[i]? = some (t.bs.outRead i)) ∧ readableBytes t = e

/-- 41_finalize.md R116 item 2: flipping one bit of the checksum segment of a phrase that passes makes
`FIN.S` answer `ChecksumMismatch` and leaves `FIN.L` successful. -/
def Obligations.ChecksumSensitivity : Prop :=
  ∀ (s t s' : State) (p : Nat) (b : Bool), s.phase = .accum → validWordCount s.wcnt.toNat = true →
    s.bs.length = 11 * s.wcnt.toNat → exec .finS s = .next t → t.phase = .ok →
    entBits s.wcnt.toNat ≤ p → s.bs[p]? = some b → s' = { s with bs := s.bs.set p (!b) } →
    (∃ u, exec .finS s' = .next u ∧ u.phase = .fail ∧ u.fcode = .checksumMismatch ∧ u.csexp = t.csexp) ∧
    (∃ u, exec .finL s' = .next u ∧ u.phase = .ok ∧ u.olen.toNat = (11 * s.wcnt.toNat + 7) / 8)

/-- 41_finalize.md R116 item 4, 10_state.md R36: two phrase windows with the same commands end in the same
nine components and give the same responses, whatever came before them. -/
def Obligations.WindowsAreIdempotent : Prop :=
  ∀ (ws : List CommandWord) (s₁ s₂ t₁ t₂ : State) (rest₁ rest₂ : List HostInput),
    s₁.inputs = wordInputs (0x1000 :: ws) ++ rest₁ → s₂.inputs = wordInputs (0x1000 :: ws) ++ rest₂ →
    run (ws.length + 1) s₁ = .next t₁ → run (ws.length + 1) s₂ = .next t₂ →
    SameComponents t₁ t₂ ∧ responses (ws.length + 1) s₁ = responses (ws.length + 1) s₂

/-- 41_finalize.md R116 item 5, 20_memory.md R55: the strict result is a prefix of the lenient one, which has
one more byte, whose top CS(n) bits are the checksum and whose other bits are 0. -/
def Obligations.StrictResultIsPrefixOfLenient : Prop :=
  ∀ s t u : State, StateInv s → s.phase = .accum → exec .finS s = .next t → t.phase = .ok →
    exec .finL s = .next u →
    u.phase = .ok ∧
    ∃ last : Byte, readableBytes u = readableBytes t ++ [last] ∧
      last >>> (8 - csBits s.wcnt.toNat) = t.csgot ∧
      last = t.csgot <<< (8 - csBits s.wcnt.toNat)

/-- 00_scope.md R3 items 3 to 6: performing a phrase window on the block gives the source's
`decode(phrase, mode)`, with the count as the block reports it, and no command of it is refused. -/
def Obligations.BlockComputesTheSourceDecode : Prop :=
  ∀ (mode : Mode) (idxs : List WordIndex) (s : State) (rest : List HostInput),
    s.inputs = hostInputs (phraseInstrs mode idxs) ++ rest →
    ∃ t, run (idxs.length + 2) s = .next t ∧ outcome t = some (referenceDecode mode idxs).asReported ∧
      NoRefusalSeen t ∧ t.inputs = rest

/-! ## The digest -/

/-- 42_sha256.md R139 (general knowledge, log 5): the four check values. -/
def Obligations.DigestCheckValues : Prop :=
  Sha256.digest [] =
    [0xe3, 0xb0, 0xc4, 0x42, 0x98, 0xfc, 0x1c, 0x14, 0x9a, 0xfb, 0xf4, 0xc8, 0x99, 0x6f, 0xb9, 0x24,
     0x27, 0xae, 0x41, 0xe4, 0x64, 0x9b, 0x93, 0x4c, 0xa4, 0x95, 0x99, 0x1b, 0x78, 0x52, 0xb8, 0x55] ∧
  Sha256.digest [0x61, 0x62, 0x63] =
    [0xba, 0x78, 0x16, 0xbf, 0x8f, 0x01, 0xcf, 0xea, 0x41, 0x41, 0x40, 0xde, 0x5d, 0xae, 0x22, 0x23,
     0xb0, 0x03, 0x61, 0xa3, 0x96, 0x17, 0x7a, 0x9c, 0xb4, 0x10, 0xff, 0x61, 0xf2, 0x00, 0x15, 0xad] ∧
  Sha256.digest (List.replicate 16 0) =
    [0x37, 0x47, 0x08, 0xff, 0xf7, 0x71, 0x9d, 0xd5, 0x97, 0x9e, 0xc8, 0x75, 0xd5, 0x6c, 0xd2, 0x28,
     0x6f, 0x6d, 0x3c, 0xf7, 0xec, 0x31, 0x7a, 0x3b, 0x25, 0x63, 0x2a, 0xab, 0x28, 0xec, 0x37, 0xbb] ∧
  Sha256.digest (List.replicate 32 0) =
    [0x66, 0x68, 0x7a, 0xad, 0xf8, 0x62, 0xbd, 0x77, 0x6c, 0x8f, 0xc1, 0x8b, 0x8e, 0x9f, 0x8e, 0x20,
     0x08, 0x97, 0x14, 0x85, 0x6e, 0xe2, 0x33, 0xb3, 0x90, 0x2a, 0x59, 0x1d, 0x0d, 0x5f, 0x29, 0x25]

/-- 42_sha256.md R133, R134 (general knowledge, log 5): H[0..7] and K[0..63] are the first 32 bits of the fractional parts of the square
roots of the first eight primes and of the cube roots of the first sixty-four. -/
def Obligations.ConstantsAreRootsOfPrimes : Prop :=
  let primes := (List.range 312).filter fun p => 2 ≤ p ∧ ∀ d ∈ List.range p, 2 ≤ d → p % d ≠ 0
  let hs := [Sha256.initial.a, Sha256.initial.b, Sha256.initial.c, Sha256.initial.d,
             Sha256.initial.e, Sha256.initial.f, Sha256.initial.g, Sha256.initial.h]
  primes.length = 64 ∧ Sha256.roundConstants.length = 64 ∧
  (∀ ph ∈ primes.zip hs, ∃ whole ∈ List.range 8,
    (whole * 2 ^ 32 + ph.2.toNat) ^ 2 ≤ ph.1 * 2 ^ 64 ∧
    ph.1 * 2 ^ 64 < (whole * 2 ^ 32 + ph.2.toNat + 1) ^ 2) ∧
  (∀ pk ∈ primes.zip Sha256.roundConstants, ∃ whole ∈ List.range 8,
    (whole * 2 ^ 32 + pk.2.toNat) ^ 3 ≤ pk.1 * 2 ^ 96 ∧
    pk.1 * 2 ^ 96 < (whole * 2 ^ 32 + pk.2.toNat + 1) ^ 3)

/-- 42_sha256.md R131 (general knowledge, log 5): what the word functions are, bit by bit. -/
def Obligations.HashWordFunctions : Prop :=
  (∀ (x : Word32) (k i : Nat), 0 < k → k < 32 → i < 32 →
    (Sha256.rotr x k).getLsbD i = x.getLsbD ((i + k) % 32)) ∧
  (∀ (x y z : Word32) (i : Nat), i < 32 →
    (Sha256.ch x y z).getLsbD i = (if x.getLsbD i then y.getLsbD i else z.getLsbD i) ∧
    ((Sha256.maj x y z).getLsbD i = true ↔
      2 ≤ (x.getLsbD i).toNat + (y.getLsbD i).toNat + (z.getLsbD i).toNat)) ∧
  (∀ (x : Word32) (i : Nat), i < 32 →
    (Sha256.bsig0 x).getLsbD i =
      (x.getLsbD ((i + 2) % 32) ^^ x.getLsbD ((i + 13) % 32) ^^ x.getLsbD ((i + 22) % 32)) ∧
    (Sha256.bsig1 x).getLsbD i =
      (x.getLsbD ((i + 6) % 32) ^^ x.getLsbD ((i + 11) % 32) ^^ x.getLsbD ((i + 25) % 32)) ∧
    (Sha256.ssig0 x).getLsbD i =
      (x.getLsbD ((i + 7) % 32) ^^ x.getLsbD ((i + 18) % 32) ^^ x.getLsbD (i + 3)) ∧
    (Sha256.ssig1 x).getLsbD i =
      (x.getLsbD ((i + 17) % 32) ^^ x.getLsbD ((i + 19) % 32) ^^ x.getLsbD (i + 10)))

/-- 42_sha256.md R132 (general knowledge, log 5): padding to a multiple of 64 bytes with the least number of zeros, the length in eight
big-endian bytes, and words of four bytes, the first most significant. -/
def Obligations.PaddingAndParsing : Prop :=
  (∀ m : List Byte, 8 * m.length < 2 ^ 64 → ∃ (z : Nat) (lb : List Byte),
    Sha256.pad m = m ++ [0x80] ++ List.replicate z 0 ++ lb ∧
    (m.length + 1 + z) % 64 = 56 ∧ (∀ z', (m.length + 1 + z') % 64 = 56 → z ≤ z') ∧
    lb.length = 8 ∧ val (lb.flatMap bitsMsb) = 8 * m.length ∧ (Sha256.pad m).length % 64 = 0) ∧
  (∀ (block : List Byte) (t : Nat), t < 16 → ∃ x, (Sha256.blockWords block)[t]? = some x ∧
    x.toNat = (block.getD (4 * t) 0).toNat * 2 ^ 24 + (block.getD (4 * t + 1) 0).toNat * 2 ^ 16 +
      (block.getD (4 * t + 2) 0).toNat * 2 ^ 8 + (block.getD (4 * t + 3) 0).toNat) ∧
  (∀ m : List Byte, (Sha256.blocks ((Sha256.pad m).length / 64) (Sha256.pad m)).flatten = Sha256.pad m ∧
    ∀ b ∈ Sha256.blocks ((Sha256.pad m).length / 64) (Sha256.pad m), b.length = 64)

/-- 42_sha256.md R135 (general knowledge, log 5): the schedule's recurrence, for every word. -/
def Obligations.MessageSchedule : Prop :=
  ∀ block : List Byte, (Sha256.schedule block).length = 64 ∧
    (∀ t, t < 16 → (Sha256.schedule block)[t]? = (Sha256.blockWords block)[t]?) ∧
    (∀ t, 16 ≤ t → t < 64 → (Sha256.schedule block)[t]? = some
      (Sha256.ssig1 ((Sha256.schedule block).getD (t - 2) 0) + (Sha256.schedule block).getD (t - 7) 0 +
       Sha256.ssig0 ((Sha256.schedule block).getD (t - 15) 0) + (Sha256.schedule block).getD (t - 16) 0))

/-- 42_sha256.md R138 (from R132, general knowledge, log 5): an entropy of 16, 20, 24, 28 or 32 bytes is padded to one block and hashed in one
pass. -/
def Obligations.EntropyIsHashedInOneBlock : Prop :=
  ∀ e : List Byte, e.length ∈ [16, 20, 24, 28, 32] →
    Sha256.pad e = e ++ [0x80] ++ List.replicate (61 - e.length) 0 ++
      [BitVec.ofNat 8 (8 * e.length / 256), BitVec.ofNat 8 (8 * e.length)] ∧
    (Sha256.pad e).length = 64 ∧
    Sha256.hashValue e = Sha256.compress Sha256.initial (Sha256.pad e)

/-- 42_sha256.md R130, R137 (log 5): the digest has 32 bytes, its byte 0 is H[0] >> 24, and as a bit sequence
it is the eight words in order, each most significant bit first. -/
def Obligations.DigestHasThirtyTwoBytes : Prop :=
  ∀ m : List Byte, (Sha256.digest m).length = 32 ∧
    (Sha256.digest m)[0]? = some (BitVec.ofNat 8 ((Sha256.hashValue m).a.toNat >>> 24)) ∧
    ∀ (k : Nat) (x : Word32),
      [(Sha256.hashValue m).a, (Sha256.hashValue m).b, (Sha256.hashValue m).c, (Sha256.hashValue m).d,
       (Sha256.hashValue m).e, (Sha256.hashValue m).f, (Sha256.hashValue m).g, (Sha256.hashValue m).h][k]? = some x →
      ∀ j, j < 32 → ((Sha256.digest m).flatMap bitsMsb)[32 * k + j]? = some (x.getLsbD (31 - j))

/-! ## Read-out -/

/-- 43_readout.md R151: `STAT` answers STATUS in every phase and changes no component. -/
def Obligations.StatusReadout : Prop :=
  encode .stat = 0x0000 ∧
  (∀ s : State, ∃ d, exec .stat s = .next { s with rsp := some ⟨false, d⟩ } ∧
    d.extractLsb' 0 2 = s.phase.code ∧ d.extractLsb' 2 2 = s.fcode.code ∧ d.extractLsb' 4 1 = s.fmode.code ∧
    d.getLsbD 5 = s.perr ∧ d.extractLsb' 6 2 = 0 ∧ d.extractLsb' 8 8 = s.wcnt) ∧
  exec .stat State.reset = .next { State.reset with rsp := some ⟨false, 0x0000⟩ } ∧
  (∀ (s : State) (e : ProtocolError), statusWord (raise e s) = statusWord s ||| 0x0020)

/-- 43_readout.md R153: `RDL` answers the lengths in every phase and changes no component. -/
def Obligations.LengthReadout : Prop :=
  encode .rdl = 0x5000 ∧
  (∀ s : State, ∃ d, exec .rdl s = .next { s with rsp := some ⟨false, d⟩ } ∧
    d.extractLsb' 0 6 = s.olen ∧ d.getLsbD 6 = false ∧
    (StateInv s → (d.extractLsb' 7 9).toNat = s.bs.length ∧ (d.extractLsb' 7 9).toNat = 11 * min s.wcnt.toNat 24 ∧
      (d.extractLsb' 7 9).toNat % 8 = s.bs.accumulator.nb ∧
      (d.extractLsb' 7 9).toNat / 8 = s.bs.accumulator.buf.length ∧
      (s.phase ≠ .ok → s.olen = 0)))

/-- 43_readout.md R154: `RDC` answers both checksum values in every phase and changes no component; they are
0 unless a `FIN.S` with a valid count was accepted, equal after a strict success, different after a mismatch. -/
def Obligations.ChecksumReadout : Prop :=
  encode .rdc = 0x6000 ∧
  (∀ s : State, ∃ d, exec .rdc s = .next { s with rsp := some ⟨false, d⟩ } ∧
    d.extractLsb' 0 8 = s.csgot ∧ d.extractLsb' 8 8 = s.csexp ∧
    (StateInv s → (¬ Hashed s → d = 0) ∧
      (Hashed s → (d.extractLsb' 0 8).toNat < 2 ^ (s.wcnt.toNat / 3) ∧
        (d.extractLsb' 8 8).toNat < 2 ^ (s.wcnt.toNat / 3)) ∧
      (s.phase = .ok → d.extractLsb' 0 8 = d.extractLsb' 8 8) ∧
      (s.fcode = .checksumMismatch → s.phase = .fail → d.extractLsb' 0 8 ≠ d.extractLsb' 8 8)))

/-- 43_readout.md R156: `RDB n` in full. -/
def Obligations.ByteReadout : Prop :=
  (∀ n : OutAddr, (encode (.rdb n)).toNat = 0x4000 + n.toNat) ∧
  (∀ (n : OutAddr) (s : State), s.phase ≠ .ok →
    exec (.rdb n) s = .next { s with perr := true, rsp := some ⟨true, 3⟩ }) ∧
  (∀ (n : OutAddr) (s : State), s.phase = .ok → s.olen.toNat ≤ n.toNat →
    exec (.rdb n) s = .next { s with perr := true, rsp := some ⟨true, 4⟩ }) ∧
  (∀ (n : OutAddr) (s : State), StateInv s → s.phase = .ok → n.toNat < s.olen.toNat →
    ∃ d, exec (.rdb n) s = .next { s with rsp := some ⟨false, d⟩ } ∧
      n.toNat < (s.bs.length + 7) / 8 ∧ d.extractLsb' 8 8 = 0 ∧
      some (d.extractLsb' 0 8) = (pack8 s.bs)[n.toNat]? ∧
      exec (.rdb n) { s with rsp := some ⟨false, d⟩ } = .next { s with rsp := some ⟨false, d⟩ }) ∧
  (∀ (n : OutAddr) (s : State), StateInv s → 33 ≤ n.toNat →
    exec (.rdb n) s = .next { s with perr := true, rsp := some ⟨true, 3⟩ } ∨
    exec (.rdb n) s = .next { s with perr := true, rsp := some ⟨true, 4⟩ }) ∧
  (∀ s : State, StateInv s → s.phase = .ok →
    (s.fmode = .strict → s.olen.toNat = 32 * s.wcnt.toNat / 3 / 8) ∧
    (s.fmode = .lenient → s.olen.toNat = (11 * s.wcnt.toNat + 7) / 8))

/-- 43_readout.md R150: the tag and the lengths are readable in every phase, the bytes only after success. -/
def Obligations.BytesAreReadableOnlyAfterSuccess : Prop :=
  (∀ (s : State) (i : Instr), (i = .stat ∨ i = .rdl ∨ i = .rdc) →
    ∃ d, exec i s = .next { s with rsp := some ⟨false, d⟩ }) ∧
  (∀ (s t : State) (n : OutAddr), exec (.rdb n) s = .next t →
    ((∃ d, t.rsp = some ⟨false, d⟩) ↔ s.phase = .ok ∧ n.toNat < s.olen.toNat))

/-- What a read-out leaves unchanged: every component (but PERR when refused), every byte of OUT; an
accepted read repeated gives the same state and response (20_memory.md R57). -/
def Obligations.ReadoutFrame : Prop :=
  ∀ (i : Instr) (s t : State), (i = .stat ∨ i = .rdl ∨ i = .rdc ∨ ∃ n, i = .rdb n) → exec i s = .next t →
    SameButPerr t s ∧ t.inputs = s.inputs ∧ (∀ a, t.bs.outRead a = s.bs.outRead a) ∧
    (∀ d, t.rsp = some ⟨false, d⟩ → t.perr = s.perr ∧ exec i t = .next t) ∧
    (∀ d, t.rsp = some ⟨true, d⟩ → t.perr = true)

/-- 43_readout.md R152: every state that meets the invariant has an outcome, STATUS tells which, and the
STATUS values a finalise answers (0x20 added when PERR is set). -/
def Obligations.StatusTellsTheOutcome : Prop :=
  (∀ s : State, StateInv s → ∃ o, outcome s = some o ∧
    (((statusWord s).extractLsb' 0 2 = 0 ∧ (statusWord s).extractLsb' 2 2 = 0 ∧ (statusWord s).extractLsb' 4 1 = 0 ∧
        o = .pending s.wcnt.toNat) ∨
     ((statusWord s).extractLsb' 0 2 = 1 ∧ (statusWord s).extractLsb' 2 2 = 0 ∧ (statusWord s).extractLsb' 4 1 = 0 ∧
        ∃ b, o = .success .strict b ∧ b.length = 32 * s.wcnt.toNat / 3 / 8) ∨
     ((statusWord s).extractLsb' 0 2 = 1 ∧ (statusWord s).extractLsb' 2 2 = 0 ∧ (statusWord s).extractLsb' 4 1 = 1 ∧
        ∃ b, o = .success .lenient b ∧ b.length = (11 * s.wcnt.toNat + 7) / 8) ∨
     ((statusWord s).extractLsb' 0 2 = 2 ∧ (statusWord s).extractLsb' 2 2 = 1 ∧ o = .invalidWordCount s.wcnt.toNat) ∨
     ((statusWord s).extractLsb' 0 2 = 2 ∧ (statusWord s).extractLsb' 2 2 = 2 ∧ (statusWord s).extractLsb' 4 1 = 0 ∧
        o = .checksumMismatch))) ∧
  (∀ (s t : State) (i : Instr) (d : DataWord), StateInv s → s.phase = .accum → (i = .finS ∨ i = .finL) →
    exec i s = .next t → t.rsp = some ⟨false, d⟩ →
    d.extractLsb' 8 8 = s.wcnt ∧
    ∃ k : BitVec 8, d.extractLsb' 0 8 = k + (if s.perr then 0x20 else 0) ∧
      (k = 0x01 ∧ i = .finS ∧ t.phase = .ok ∨ k = 0x11 ∧ i = .finL ∧ t.phase = .ok ∨
       k = 0x06 ∧ i = .finS ∧ t.fcode = .invalidWordCount ∨ k = 0x16 ∧ i = .finL ∧ t.fcode = .invalidWordCount ∨
       k = 0x0A ∧ i = .finS ∧ t.fcode = .checksumMismatch))

/-- 43_readout.md R157: `RDL`, then `RDB 0` to `RDB OLEN-1`, collects the Entropy Buffer. -/
def Obligations.CollectingReadsTheBuffer : Prop :=
  ∀ (s : State) (rest : List HostInput), StateInv s → s.phase = .ok →
    s.inputs = hostInputs (.rdl :: (List.range s.olen.toNat).map fun n => .rdb (BitVec.ofNat 6 n)) ++ rest →
    responses (s.olen.toNat + 1) s =
      ⟨false, lenWord s⟩ :: (readableBytes s).map (fun b => ⟨false, zext16 b⟩) ∧
    (lenWord s).extractLsb' 0 6 = s.olen ∧ readableBytes s = (pack8 s.bs).take s.olen.toNat

/-! ## Refusals -/

/-- 60_exceptions.md R171: which response each protocol error is, and exactly when it is raised. -/
def Obligations.RefusalCodes : Prop :=
  ∀ (s t : State) (w : CommandWord) (rest : List HostInput), s.inputs = .command w :: rest → step s = .next t →
    (t.rsp = some ⟨true, 1⟩ ↔ ∀ r ∈ commandMap, r.selects w = false) ∧
    (t.rsp = some ⟨true, 2⟩ ↔ s.phase ≠ .accum ∧
      ((∃ idx, decode w = .command (.push idx)) ∨ decode w = .command .finS ∨ decode w = .command .finL)) ∧
    (t.rsp = some ⟨true, 3⟩ ↔ s.phase ≠ .ok ∧ ∃ n, decode w = .command (.rdb n)) ∧
    (t.rsp = some ⟨true, 4⟩ ↔ s.phase = .ok ∧ ∃ n, decode w = .command (.rdb n) ∧ s.olen.toNat ≤ n.toNat) ∧
    (∀ d, t.rsp = some ⟨true, d⟩ → d = 1 ∨ d = 2 ∨ d = 3 ∨ d = 4)

/-- 60_exceptions.md R172: a refused command changes nothing but PERR, and the next command is executed as if
it had not been issued, PERR and its image in STATUS apart: only an accepted `STAT`, `FIN.S` or `FIN.L` answers
STATUS, and then bit 5 is set; every other response is the same. -/
def Obligations.RefusalChangesOnlyPerr : Prop :=
  ∀ (s t : State) (w : CommandWord) (rest : List HostInput) (d : DataWord),
    s.inputs = .command w :: rest → step s = .next t → t.rsp = some ⟨true, d⟩ →
    t = { s with inputs := rest, perr := true, rsp := some ⟨true, d⟩ } ∧
    ∀ (w' : CommandWord) (more : List HostInput) (a b : State), rest = .command w' :: more →
      step t = .next a → step { s with inputs := rest } = .next b →
      SameButPerr a b ∧
      ∃ ra rb, a.rsp = some ra ∧ b.rsp = some rb ∧ ra.err = rb.err ∧
        (rb.err = false → (decode w' = .command .stat ∨ decode w' = .command .finS ∨ decode w' = .command .finL) →
          ra.data = rb.data ||| 0x0020) ∧
        (rb.err = true ∨ ¬ (decode w' = .command .stat ∨ decode w' = .command .finS ∨ decode w' = .command .finL) →
          ra.data = rb.data)

/-- 60_exceptions.md R174: one event per command, illegal first, then the phase gate, then the range, and for
an accepted finalise the count before the checksum. -/
def Obligations.OneEventPerCommand : Prop :=
  (∀ (s : State) (w : CommandWord) (rest : List HostInput), s.inputs = .command w :: rest →
    (∀ e, decode w = .illegal e → step s = .next (raise .illegal { s with inputs := rest })) ∧
    (∀ i, decode w = .command i → s.phase ≠ .accum → ((∃ idx, i = .push idx) ∨ i = .finS ∨ i = .finL) →
      step s = .next (raise .phase { s with inputs := rest })) ∧
    (∀ n, decode w = .command (.rdb n) → s.phase ≠ .ok →
      step s = .next (raise .notReady { s with inputs := rest })) ∧
    (∀ n, decode w = .command (.rdb n) → s.phase = .ok → s.olen.toNat ≤ n.toNat →
      step s = .next (raise .range { s with inputs := rest })) ∧
    (wordRefusal w s = none → ∃ t d, step s = .next t ∧ t.rsp = some ⟨false, d⟩)) ∧
  (∀ s t : State, s.phase = .accum → exec .finS s = .next t → s.wcnt.toNat ∉ [12, 15, 18, 21, 24] →
    t.fcode = .invalidWordCount ∧ t.csexp = s.csexp)

/-- 10_state.md R30: PERR is set by every refused command, cleared by `CLR` and reset, and otherwise kept;
no outcome depends on it. -/
def Obligations.PerrIsSticky : Prop :=
  (∀ (s t : State) (w : CommandWord) (rest : List HostInput), s.inputs = .command w :: rest → step s = .next t →
    (t.perr = true ↔ (∃ d, t.rsp = some ⟨true, d⟩) ∨ (s.perr = true ∧ w ≠ 0x1000))) ∧
  (∀ (s t : State) (rest : List HostInput), s.inputs = .reset :: rest → step s = .next t → t.perr = false) ∧
  State.reset.perr = false ∧ (∀ (s : State) (b : Bool), outcome { s with perr := b } = outcome s)

/-- 60_exceptions.md R170: the two classified outcomes, when each arises, and that it is answered with
ERR = 0. -/
def Obligations.ClassifiedOutcomes : Prop :=
  ∀ (s t : State) (w : CommandWord) (rest : List HostInput), s.inputs = .command w :: rest → step s = .next t →
    s.phase = .accum →
    (t.phase = .fail ↔
      (decode w = .command .finS ∨ decode w = .command .finL) ∧ s.wcnt.toNat ∉ [12, 15, 18, 21, 24] ∨
      decode w = .command .finS ∧ s.wcnt.toNat ∈ [12, 15, 18, 21, 24] ∧ t.csgot ≠ t.csexp) ∧
    (t.phase = .fail →
      t.rsp = some ⟨false, statusWord t⟩ ∧ (statusWord t).extractLsb' 8 8 = s.wcnt ∧
      (t.fmode = .strict ↔ decode w = .command .finS) ∧
      (t.fcode.code = 1 ↔ s.wcnt.toNat ∉ [12, 15, 18, 21, 24]) ∧
      (t.fcode.code = 2 ↔ s.wcnt.toNat ∈ [12, 15, 18, 21, 24]))

/-! ## Invariants -/

/-- 10_state.md R34, and R27 to R29, hold at reset. -/
def Obligations.ResetMeetsInvariants : Prop := StateInv State.reset ∧ Latched State.reset

/-- 10_state.md R34: every step keeps the invariant, from every state that meets it. -/
def Obligations.StepKeepsInvariant : Prop :=
  ∀ s t : State, StateInv s → step s = .next t → StateInv t

/-- 10_state.md R27, R28, R29: what OLEN, CSGOT and CSEXP hold in every situation is kept by every step. -/
def Obligations.StepKeepsLatchedValues : Prop :=
  ∀ s t : State, Latched s → step s = .next t → Latched t

/-- 10_state.md R22, R27, R33: in every state that meets the invariant the store has its form and the readable
bytes lie within the 33 backed addresses of OUT. -/
def Obligations.ReadableBytesAreBacked : Prop :=
  ∀ s : State, StateInv s → s.bs.wf = true ∧ s.olen.toNat ≤ byteCount s.bs.length ∧ s.olen.toNat ≤ 33 ∧
    ∀ n, n < s.olen.toNat → s.bs.backed n = true
end

