-- ==== Sys2Proof/Laws/State.lean ====
section
/-! SUPPORT. What each state update leaves in each field: one lemma per field per update, true by rfl. -/

namespace Sys2Proof.Machine

@[simp] theorem respond_bs (d : DataWord) (s : State) : (respond d s).bs = s.bs := rfl
@[simp] theorem respond_wcnt (d : DataWord) (s : State) : (respond d s).wcnt = s.wcnt := rfl
@[simp] theorem respond_phase (d : DataWord) (s : State) : (respond d s).phase = s.phase := rfl
@[simp] theorem respond_fmode (d : DataWord) (s : State) : (respond d s).fmode = s.fmode := rfl
@[simp] theorem respond_fcode (d : DataWord) (s : State) : (respond d s).fcode = s.fcode := rfl
@[simp] theorem respond_olen (d : DataWord) (s : State) : (respond d s).olen = s.olen := rfl
@[simp] theorem respond_csgot (d : DataWord) (s : State) : (respond d s).csgot = s.csgot := rfl
@[simp] theorem respond_csexp (d : DataWord) (s : State) : (respond d s).csexp = s.csexp := rfl
@[simp] theorem respond_perr (d : DataWord) (s : State) : (respond d s).perr = s.perr := rfl
@[simp] theorem respond_inputs (d : DataWord) (s : State) : (respond d s).inputs = s.inputs := rfl
@[simp] theorem respond_rsp (d : DataWord) (s : State) : (respond d s).rsp = some ⟨false, d⟩ := rfl

@[simp] theorem raise_bs (e : ProtocolError) (s : State) : (raise e s).bs = s.bs := rfl
@[simp] theorem raise_wcnt (e : ProtocolError) (s : State) : (raise e s).wcnt = s.wcnt := rfl
@[simp] theorem raise_phase (e : ProtocolError) (s : State) : (raise e s).phase = s.phase := rfl
@[simp] theorem raise_fmode (e : ProtocolError) (s : State) : (raise e s).fmode = s.fmode := rfl
@[simp] theorem raise_fcode (e : ProtocolError) (s : State) : (raise e s).fcode = s.fcode := rfl
@[simp] theorem raise_olen (e : ProtocolError) (s : State) : (raise e s).olen = s.olen := rfl
@[simp] theorem raise_csgot (e : ProtocolError) (s : State) : (raise e s).csgot = s.csgot := rfl
@[simp] theorem raise_csexp (e : ProtocolError) (s : State) : (raise e s).csexp = s.csexp := rfl
@[simp] theorem raise_perr (e : ProtocolError) (s : State) : (raise e s).perr = true := rfl
@[simp] theorem raise_inputs (e : ProtocolError) (s : State) : (raise e s).inputs = s.inputs := rfl
@[simp] theorem raise_rsp (e : ProtocolError) (s : State) : (raise e s).rsp = some ⟨true, e.code⟩ := rfl

@[simp] theorem clearAll_bs (s : State) : (clearAll s).bs = [] := rfl
@[simp] theorem clearAll_wcnt (s : State) : (clearAll s).wcnt = 0 := rfl
@[simp] theorem clearAll_phase (s : State) : (clearAll s).phase = .accum := rfl
@[simp] theorem clearAll_fmode (s : State) : (clearAll s).fmode = .strict := rfl
@[simp] theorem clearAll_fcode (s : State) : (clearAll s).fcode = .noFailure := rfl
@[simp] theorem clearAll_olen (s : State) : (clearAll s).olen = 0 := rfl
@[simp] theorem clearAll_csgot (s : State) : (clearAll s).csgot = 0 := rfl
@[simp] theorem clearAll_csexp (s : State) : (clearAll s).csexp = 0 := rfl
@[simp] theorem clearAll_perr (s : State) : (clearAll s).perr = false := rfl
@[simp] theorem clearAll_inputs (s : State) : (clearAll s).inputs = s.inputs := rfl
@[simp] theorem clearAll_rsp (s : State) : (clearAll s).rsp = s.rsp := rfl

@[simp] theorem takeInput_bs (s : State) : (takeInput s).bs = s.bs := rfl
@[simp] theorem takeInput_wcnt (s : State) : (takeInput s).wcnt = s.wcnt := rfl
@[simp] theorem takeInput_phase (s : State) : (takeInput s).phase = s.phase := rfl
@[simp] theorem takeInput_fmode (s : State) : (takeInput s).fmode = s.fmode := rfl
@[simp] theorem takeInput_fcode (s : State) : (takeInput s).fcode = s.fcode := rfl
@[simp] theorem takeInput_olen (s : State) : (takeInput s).olen = s.olen := rfl
@[simp] theorem takeInput_csgot (s : State) : (takeInput s).csgot = s.csgot := rfl
@[simp] theorem takeInput_csexp (s : State) : (takeInput s).csexp = s.csexp := rfl
@[simp] theorem takeInput_perr (s : State) : (takeInput s).perr = s.perr := rfl
@[simp] theorem takeInput_inputs (s : State) : (takeInput s).inputs = s.inputs.tail := rfl
@[simp] theorem takeInput_rsp (s : State) : (takeInput s).rsp = s.rsp := rfl

@[simp] theorem applyReset_bs (s : State) : (applyReset s).bs = [] := rfl
@[simp] theorem applyReset_wcnt (s : State) : (applyReset s).wcnt = 0 := rfl
@[simp] theorem applyReset_phase (s : State) : (applyReset s).phase = .accum := rfl
@[simp] theorem applyReset_fmode (s : State) : (applyReset s).fmode = .strict := rfl
@[simp] theorem applyReset_fcode (s : State) : (applyReset s).fcode = .noFailure := rfl
@[simp] theorem applyReset_olen (s : State) : (applyReset s).olen = 0 := rfl
@[simp] theorem applyReset_csgot (s : State) : (applyReset s).csgot = 0 := rfl
@[simp] theorem applyReset_csexp (s : State) : (applyReset s).csexp = 0 := rfl
@[simp] theorem applyReset_perr (s : State) : (applyReset s).perr = false := rfl
@[simp] theorem applyReset_inputs (s : State) : (applyReset s).inputs = s.inputs := rfl
@[simp] theorem applyReset_rsp (s : State) : (applyReset s).rsp = none := rfl

@[simp] theorem countPush_bs (s : State) : (countPush s).bs = s.bs := rfl
@[simp] theorem countPush_wcnt (s : State) : (countPush s).wcnt = nextCount s.wcnt := rfl
@[simp] theorem countPush_phase (s : State) : (countPush s).phase = s.phase := rfl
@[simp] theorem countPush_fmode (s : State) : (countPush s).fmode = s.fmode := rfl
@[simp] theorem countPush_fcode (s : State) : (countPush s).fcode = s.fcode := rfl
@[simp] theorem countPush_olen (s : State) : (countPush s).olen = s.olen := rfl
@[simp] theorem countPush_csgot (s : State) : (countPush s).csgot = s.csgot := rfl
@[simp] theorem countPush_csexp (s : State) : (countPush s).csexp = s.csexp := rfl
@[simp] theorem countPush_perr (s : State) : (countPush s).perr = s.perr := rfl
@[simp] theorem countPush_inputs (s : State) : (countPush s).inputs = s.inputs := rfl
@[simp] theorem countPush_rsp (s : State) : (countPush s).rsp = s.rsp := rfl

@[simp] theorem failCount_bs (m : Mode) (s : State) : (failCount m s).bs = s.bs := rfl
@[simp] theorem failCount_wcnt (m : Mode) (s : State) : (failCount m s).wcnt = s.wcnt := rfl
@[simp] theorem failCount_phase (m : Mode) (s : State) : (failCount m s).phase = .fail := rfl
@[simp] theorem failCount_fmode (m : Mode) (s : State) : (failCount m s).fmode = m := rfl
@[simp] theorem failCount_fcode (m : Mode) (s : State) : (failCount m s).fcode = .invalidWordCount := rfl
@[simp] theorem failCount_olen (m : Mode) (s : State) : (failCount m s).olen = 0 := rfl
@[simp] theorem failCount_csgot (m : Mode) (s : State) : (failCount m s).csgot = s.csgot := rfl
@[simp] theorem failCount_csexp (m : Mode) (s : State) : (failCount m s).csexp = s.csexp := rfl
@[simp] theorem failCount_perr (m : Mode) (s : State) : (failCount m s).perr = s.perr := rfl
@[simp] theorem failCount_inputs (m : Mode) (s : State) : (failCount m s).inputs = s.inputs := rfl
@[simp] theorem failCount_rsp (m : Mode) (s : State) : (failCount m s).rsp = s.rsp := rfl

@[simp] theorem succeed_bs (m : Mode) (l : BitVec 6) (s : State) : (succeed m l s).bs = s.bs := rfl
@[simp] theorem succeed_wcnt (m : Mode) (l : BitVec 6) (s : State) : (succeed m l s).wcnt = s.wcnt := rfl
@[simp] theorem succeed_phase (m : Mode) (l : BitVec 6) (s : State) : (succeed m l s).phase = .ok := rfl
@[simp] theorem succeed_fmode (m : Mode) (l : BitVec 6) (s : State) : (succeed m l s).fmode = m := rfl
@[simp] theorem succeed_fcode (m : Mode) (l : BitVec 6) (s : State) : (succeed m l s).fcode = .noFailure := rfl
@[simp] theorem succeed_olen (m : Mode) (l : BitVec 6) (s : State) : (succeed m l s).olen = l := rfl
@[simp] theorem succeed_csgot (m : Mode) (l : BitVec 6) (s : State) : (succeed m l s).csgot = s.csgot := rfl
@[simp] theorem succeed_csexp (m : Mode) (l : BitVec 6) (s : State) : (succeed m l s).csexp = s.csexp := rfl
@[simp] theorem succeed_perr (m : Mode) (l : BitVec 6) (s : State) : (succeed m l s).perr = s.perr := rfl
@[simp] theorem succeed_inputs (m : Mode) (l : BitVec 6) (s : State) : (succeed m l s).inputs = s.inputs := rfl
@[simp] theorem succeed_rsp (m : Mode) (l : BitVec 6) (s : State) : (succeed m l s).rsp = s.rsp := rfl

@[simp] theorem failChecksum_bs (s : State) : (failChecksum s).bs = s.bs := rfl
@[simp] theorem failChecksum_wcnt (s : State) : (failChecksum s).wcnt = s.wcnt := rfl
@[simp] theorem failChecksum_phase (s : State) : (failChecksum s).phase = .fail := rfl
@[simp] theorem failChecksum_fmode (s : State) : (failChecksum s).fmode = .strict := rfl
@[simp] theorem failChecksum_fcode (s : State) : (failChecksum s).fcode = .checksumMismatch := rfl
@[simp] theorem failChecksum_olen (s : State) : (failChecksum s).olen = 0 := rfl
@[simp] theorem failChecksum_csgot (s : State) : (failChecksum s).csgot = s.csgot := rfl
@[simp] theorem failChecksum_csexp (s : State) : (failChecksum s).csexp = s.csexp := rfl
@[simp] theorem failChecksum_perr (s : State) : (failChecksum s).perr = s.perr := rfl
@[simp] theorem failChecksum_inputs (s : State) : (failChecksum s).inputs = s.inputs := rfl
@[simp] theorem failChecksum_rsp (s : State) : (failChecksum s).rsp = s.rsp := rfl

@[simp] theorem latchChecksums_bs (n : Nat) (s : State) : (latchChecksums n s).bs = s.bs := rfl
@[simp] theorem latchChecksums_wcnt (n : Nat) (s : State) : (latchChecksums n s).wcnt = s.wcnt := rfl
@[simp] theorem latchChecksums_phase (n : Nat) (s : State) : (latchChecksums n s).phase = s.phase := rfl
@[simp] theorem latchChecksums_fmode (n : Nat) (s : State) : (latchChecksums n s).fmode = s.fmode := rfl
@[simp] theorem latchChecksums_fcode (n : Nat) (s : State) : (latchChecksums n s).fcode = s.fcode := rfl
@[simp] theorem latchChecksums_olen (n : Nat) (s : State) : (latchChecksums n s).olen = s.olen := rfl
@[simp] theorem latchChecksums_csgot (n : Nat) (s : State) : (latchChecksums n s).csgot = checksumGot n s.bs := rfl
@[simp] theorem latchChecksums_csexp (n : Nat) (s : State) : (latchChecksums n s).csexp = checksumExpected n s.bs := rfl
@[simp] theorem latchChecksums_perr (n : Nat) (s : State) : (latchChecksums n s).perr = s.perr := rfl
@[simp] theorem latchChecksums_inputs (n : Nat) (s : State) : (latchChecksums n s).inputs = s.inputs := rfl
@[simp] theorem latchChecksums_rsp (n : Nat) (s : State) : (latchChecksums n s).rsp = s.rsp := rfl

end Sys2Proof.Machine
end

