-- ==== Sys2Proof/Laws/Bits.lean ====
section
/-! SUPPORT. Bit sequences, the numbers they spell, and packing (00_scope.md R9, R11; 20_memory.md R52 to R54). -/

namespace Sys2Proof.Machine

/-! ## `val` -/

@[simp] theorem val_nil : val [] = 0 := rfl

theorem val_foldl (s : BitSeq) (k : Nat) :
    s.foldl (fun acc b => 2 * acc + b.toNat) k = k * 2 ^ s.length + val s := by
  induction s generalizing k with
  | nil => simp
  | cons b s ih =>
    have h : val (b :: s) = b.toNat * 2 ^ s.length + val s := by
      simpa [val] using ih b.toNat
    simp only [List.foldl_cons, List.length_cons, h, ih, Nat.pow_succ]
    ring

theorem val_append (s t : BitSeq) : val (s ++ t) = val s * 2 ^ t.length + val t := by
  rw [val, List.foldl_append, val_foldl]; rfl

@[simp] theorem val_cons (b : Bool) (s : BitSeq) : val (b :: s) = b.toNat * 2 ^ s.length + val s := by
  simpa [val] using val_foldl s b.toNat

theorem val_lt (s : BitSeq) : val s < 2 ^ s.length := by
  induction s with
  | nil => simp
  | cons b s ih =>
    rw [val_cons, List.length_cons, Nat.pow_succ]
    cases b <;> simp <;> omega

/-- Bit j of the number is the element j places before the last. -/
theorem testBit_val (s : BitSeq) (j : Nat) :
    (val s).testBit j = if j < s.length then s.getD (s.length - 1 - j) false else false := by
  induction s with
  | nil => simp
  | cons b s ih =>
    rw [val_cons, Nat.mul_comm, Nat.testBit_two_pow_mul_add _ (val_lt s), List.length_cons]
    by_cases h : j < s.length
    · have e : s.length + 1 - 1 - j = (s.length - 1 - j) + 1 := by omega
      have h' : j < s.length + 1 := by omega
      rw [if_pos h, ih, if_pos h, if_pos h', e, List.getD_cons_succ]
    · rw [if_neg h]
      by_cases h2 : j = s.length
      · subst h2; cases b <;> simp
      · have h3 : ¬ j < s.length + 1 := by omega
        rw [if_neg h3]
        have h4 : j - s.length = (j - s.length - 1) + 1 := by omega
        cases b <;> rw [h4] <;> simp [Nat.testBit_succ]

/-! ## `bits_N` -/

@[simp] theorem length_bitsMsb {n : Nat} (v : BitVec n) : (bitsMsb v).length = n := by simp [bitsMsb]

theorem getElem?_bitsMsb {n : Nat} (v : BitVec n) (j : Nat) (h : j < n) :
    (bitsMsb v)[j]? = some (v.getLsbD (n - 1 - j)) := by simp [bitsMsb, h]

theorem getD_bitsMsb {n : Nat} (v : BitVec n) (j : Nat) (h : j < n) (d : Bool) :
    (bitsMsb v).getD j d = v.getLsbD (n - 1 - j) := by
  rw [List.getD_eq_getElem?_getD, getElem?_bitsMsb v j h]; rfl

/-- val(bits_N(v)) = v (00_scope.md R9). -/
@[simp] theorem val_bitsMsb {n : Nat} (v : BitVec n) : val (bitsMsb v) = v.toNat := by
  refine Nat.eq_of_testBit_eq fun j => ?_
  rw [testBit_val, length_bitsMsb, BitVec.testBit_toNat]
  by_cases h : j < n
  · rw [if_pos h, getD_bitsMsb v _ (by omega)]
    congr 1; omega
  · rw [if_neg h, BitVec.getLsbD_of_ge v j (by omega)]

/-- A sequence is the bits of the number it spells. -/
theorem bitsMsb_ofNat_val {n : Nat} (s : BitSeq) (h : s.length = n) :
    bitsMsb (BitVec.ofNat n (val s)) = s := by
  subst h
  refine List.ext_getElem? fun j => ?_
  by_cases hj : j < s.length
  · rw [getElem?_bitsMsb _ j hj, BitVec.getLsbD_ofNat, testBit_val]
    have e : s.length - 1 - (s.length - 1 - j) = j := by omega
    have l : s.length - 1 - j < s.length := by omega
    simp [l, e, hj]
  · rw [List.getElem?_eq_none (by simpa using hj), List.getElem?_eq_none (by simpa using hj)]

theorem bitsMsb_injective {n : Nat} {v w : BitVec n} (h : bitsMsb v = bitsMsb w) : v = w :=
  BitVec.eq_of_toNat_eq (by rw [← val_bitsMsb v, ← val_bitsMsb w, h])

/-- Sequences of one length that spell one number are equal. -/
theorem eq_of_val_eq {s t : BitSeq} (hl : s.length = t.length) (h : val s = val t) : s = t := by
  rw [← bitsMsb_ofNat_val s rfl, ← bitsMsb_ofNat_val t hl.symm, h]

/-! ## Bytes -/

/-- Each bit of a packed byte (00_scope.md R11, 20_memory.md R53). -/
theorem getLsbD_packByte (s : BitSeq) (i j : Nat) (h : j < 8) :
    (packByte s i).getLsbD (7 - j) = s.getD (8 * i + j) false := by
  have l : 7 - j < 8 := by omega
  have e : 8 - 1 - (7 - j) = j := by omega
  simp only [packByte, BitVec.getLsbD_ofNat, testBit_val, List.length_map, List.length_range, l, e]
  simp [List.getD_eq_getElem?_getD, h]

theorem packByte_congr {s t : BitSeq} {i k : Nat}
    (h : ∀ j, j < 8 → s.getD (8 * i + j) false = t.getD (8 * k + j) false) : packByte s i = packByte t k := by
  refine BitVec.eq_of_getLsbD_eq fun j hj => ?_
  have e : j = 7 - (7 - j) := by omega
  rw [e, getLsbD_packByte _ _ _ (by omega), getLsbD_packByte _ _ _ (by omega), h _ (by omega)]

/-- The bits of a packed byte, in order. -/
theorem bitsMsb_packByte (s : BitSeq) (i : Nat) :
    bitsMsb (packByte s i) = (List.range 8).map fun j => s.getD (8 * i + j) false :=
  bitsMsb_ofNat_val _ (by simp)

/-- A packed byte whose eight bits all stand in the sequence. -/
theorem packByte_eq_val (s : BitSeq) (i : Nat) (h : 8 * i + 8 ≤ s.length) :
    packByte s i = BitVec.ofNat 8 (val ((s.drop (8 * i)).take 8)) := by
  refine bitsMsb_injective ?_
  rw [bitsMsb_packByte, bitsMsb_ofNat_val _ (by simp; omega)]
  refine List.ext_getElem? fun j => ?_
  by_cases hj : j < 8
  · have l : 8 * i + j < s.length := by omega
    simp [hj, List.getElem?_drop, l]
  · rw [List.getElem?_eq_none (by simpa using hj), List.getElem?_eq_none (by simp; omega)]

@[simp] theorem length_pack8 (s : BitSeq) : (pack8 s).length = byteCount s.length := by simp [pack8]

theorem getElem?_pack8 (s : BitSeq) (i : Nat) (h : i < byteCount s.length) :
    (pack8 s)[i]? = some (packByte s i) := by simp [pack8, h]

@[simp] theorem pack8_nil : pack8 [] = [] := rfl

/-! ## Bytes spelled out as bits -/

theorem length_flatMap_bits {n : Nat} (l : List (BitVec n)) : (l.flatMap bitsMsb).length = n * l.length := by
  induction l with
  | nil => simp
  | cons a l ih => simp [ih, Nat.mul_add, Nat.add_comm]

/-- Element p of a list of n-bit words spelled out: bit (n-1 - p mod n) of word p div n (20_memory.md R52). -/
theorem getElem?_flatMap_bits {n : Nat} (hn : 0 < n) (l : List (BitVec n)) (p : Nat) :
    (l.flatMap bitsMsb)[p]? = l[p / n]?.map fun v => v.getLsbD (n - 1 - p % n) := by
  induction l generalizing p with
  | nil => simp
  | cons a l ih =>
    rw [List.flatMap_cons]
    by_cases h : p < n
    · rw [List.getElem?_append_left (by simpa using h), getElem?_bitsMsb a p h, Nat.div_eq_of_lt h,
        Nat.mod_eq_of_lt h]
      rfl
    · have hp : n ≤ p := by omega
      rw [List.getElem?_append_right (by simpa using hp), length_bitsMsb, ih]
      have e : p / n = (p - n) / n + 1 := Nat.div_eq_sub_div hn hp
      rw [Nat.mod_eq_sub_mod hp, e, List.getElem?_cons_succ]

/-- Packing bytes spelled out gives the bytes back. -/
theorem pack8_flatMap_bits (e : List Byte) : pack8 (e.flatMap bitsMsb) = e := by
  refine List.ext_getElem? fun i => ?_
  by_cases h : i < e.length
  · have hb : i < byteCount (e.flatMap bitsMsb).length := by rw [length_flatMap_bits]; simp [byteCount]; omega
    rw [getElem?_pack8 _ _ hb, List.getElem?_eq_getElem h]
    refine congrArg some (bitsMsb_injective ?_)
    rw [bitsMsb_packByte]
    refine List.ext_getElem? fun j => ?_
    by_cases hj : j < 8
    · have e1 : (8 * i + j) / 8 = i := by omega
      have e2 : (8 * i + j) % 8 = j := by omega
      rw [getElem?_bitsMsb _ _ hj]
      simp [hj, getElem?_flatMap_bits, e1, Nat.mod_eq_of_lt hj, List.getElem?_eq_getElem h]
    · rw [List.getElem?_eq_none (by simpa using hj), List.getElem?_eq_none (by simpa using hj)]
  · have hb : byteCount (e.flatMap bitsMsb).length ≤ i := by
      rw [length_flatMap_bits]; simp [byteCount]; omega
    rw [List.getElem?_eq_none (by rwa [length_pack8]), List.getElem?_eq_none (by omega)]

/-- Spelling out the packing of a whole number of bytes gives the sequence back. -/
theorem flatMap_bits_pack8 (s : BitSeq) (h : s.length % 8 = 0) : (pack8 s).flatMap bitsMsb = s := by
  refine List.ext_getElem? fun p => ?_
  rw [getElem?_flatMap_bits (by omega)]
  by_cases hp : p < s.length
  · have hb : p / 8 < byteCount s.length := by simp [byteCount]; omega
    rw [getElem?_pack8 _ _ hb, Option.map_some, getLsbD_packByte _ _ _ (by omega)]
    have e : 8 * (p / 8) + p % 8 = p := by omega
    simp [e, hp]
  · have hb : byteCount s.length ≤ p / 8 := by simp [byteCount]; omega
    rw [List.getElem?_eq_none (by rwa [length_pack8]), List.getElem?_eq_none (by omega), Option.map_none]

/-! ## Phrases -/

theorem phraseBits_eq (idxs : List WordIndex) : phraseBits idxs = idxs.flatMap bitsMsb := rfl

@[simp] theorem length_indexBits (idx : WordIndex) : (indexBits idx).length = 11 := length_bitsMsb idx

@[simp] theorem length_phraseBits (idxs : List WordIndex) : (phraseBits idxs).length = 11 * idxs.length :=
  length_flatMap_bits idxs

theorem getElem?_phraseBits (idxs : List WordIndex) (p : Nat) :
    (phraseBits idxs)[p]? = idxs[p / 11]?.map fun v => v.getLsbD (10 - p % 11) :=
  getElem?_flatMap_bits (by omega) idxs p

@[simp] theorem phraseBits_append (a b : List WordIndex) : phraseBits (a ++ b) = phraseBits a ++ phraseBits b :=
  List.flatMap_append

/-- A sequence of 11n bits is the phrase of its n groups of eleven (41_finalize.md R116 item 1). -/
theorem phraseBits_groups (n : Nat) (s : BitSeq) (h : s.length = 11 * n) :
    phraseBits ((List.range n).map fun k => BitVec.ofNat 11 (val ((s.drop (11 * k)).take 11))) = s := by
  refine List.ext_getElem? fun p => ?_
  rw [getElem?_phraseBits]
  by_cases hp : p < s.length
  · have hk : p / 11 < n := by omega
    have hl : ((s.drop (11 * (p / 11))).take 11).length = 11 := by simp; omega
    have hb := getElem?_bitsMsb (BitVec.ofNat 11 (val ((s.drop (11 * (p / 11))).take 11))) (p % 11) (by omega)
    rw [bitsMsb_ofNat_val _ hl] at hb
    have e : 11 * (p / 11) + p % 11 = p := by omega
    have e2 : p % 11 < 11 := by omega
    simp only [List.getElem?_take, e2, if_true, List.getElem?_drop, e] at hb
    simp [hk, hb]
  · have hk : n ≤ p / 11 := by omega
    rw [List.getElem?_eq_none (by simpa using hk), List.getElem?_eq_none (by omega), Option.map_none]

end Sys2Proof.Machine
end

