-- ==== Sys2Proof/Laws/Memory.lean ====
section
/-! SUPPORT. The bit store: every operation keeps its form, and what a byte read sees of an append
(10_state.md R22, 20_memory.md R50 to R56). -/

namespace Sys2Proof.Machine

theorem Memory.wf_iff (m : Memory) : m.wf = true ↔ m.length % 11 = 0 ∧ m.length ≤ 264 := by
  rw [Memory.wf, Bool.and_eq_true, beq_iff_eq, decide_eq_true_iff]; rfl

/-- The empty store has the form. -/
theorem Memory.wf_nil : Memory.wf [] = true := by decide

/-- The reset store has the form. -/
theorem Memory.wf_reset : State.reset.bs.wf = true := by decide

@[simp] theorem Memory.length_append (m : Memory) (idx : WordIndex) :
    List.length (m.append idx) = m.length + 11 := by
  simp [Memory.append]

/-- An append to a store that is not full keeps the form. -/
theorem Memory.wf_append (m : Memory) (idx : WordIndex) (h : m.wf = true) (hl : m.length < Config.bscap) :
    (m.append idx).wf = true := by
  rw [Memory.wf_iff] at h ⊢
  rw [Memory.length_append]
  simp only [Config.bscap, Config.wmax] at hl
  omega

/-- What `PUSH` does to the store keeps the form, in every state that stores at most 24 words. -/
theorem wf_storeIndex (idx : WordIndex) (s : State) (h : s.bs.length = 11 * min s.wcnt.toNat Config.wmax) :
    (storeIndex idx s).bs.wf = true := by
  simp only [Config.wmax] at h
  by_cases hc : s.wcnt.toNat < Config.wmax
  · rw [storeIndex, if_pos hc]
    simp only [Config.wmax] at hc
    refine Memory.wf_append _ _ ((Memory.wf_iff _).2 (by omega)) ?_
    simp only [Config.bscap, Config.wmax]; omega
  · rw [storeIndex, if_neg hc]
    exact (Memory.wf_iff _).2 (by omega)

theorem Memory.outRead_eq (m : Memory) (a : Nat) : m.outRead a = packByte m a := rfl

/-- A byte already complete is not changed by an append. -/
theorem Memory.outRead_append_complete (m : Memory) (idx : WordIndex) (a : Nat) (h : a < m.length / 8) :
    (m.append idx).outRead a = m.outRead a := by
  refine packByte_congr fun j hj => ?_
  have l : 8 * a + j < m.length := by omega
  simp [Memory.append, List.getD_eq_getElem?_getD, List.getElem?_append_left l]

/-- A byte beyond the end of the store reads as 0 (log 6). -/
theorem Memory.outRead_beyond (m : Memory) (a : Nat) (h : byteCount m.length ≤ a) : m.outRead a = 0 := by
  refine BitVec.eq_of_getLsbD_eq fun j hj => ?_
  have e : j = 7 - (7 - j) := by omega
  have l : m.length ≤ 8 * a + (7 - j) := by simp only [byteCount] at h; omega
  rw [e, Memory.outRead_eq, getLsbD_packByte _ _ _ (by omega)]
  simp [List.getD_eq_getElem?_getD, List.getElem?_eq_none l]

/-- Byte a of a prefix that holds it whole. -/
theorem packByte_take (s : BitSeq) (k a : Nat) (h : 8 * a + 8 ≤ k) : packByte (s.take k) a = packByte s a := by
  refine packByte_congr fun j hj => ?_
  have l : 8 * a + j < k := by omega
  simp [List.getD_eq_getElem?_getD, l]

/-- `OutRead(n)` is byte n of `pack8(BS)` where the rule defines it (20_memory.md R53). -/
theorem Memory.pack8_getElem? (m : Memory) (a : Nat) (h : m.backed a = true) : (pack8 m)[a]? = some (m.outRead a) :=
  getElem?_pack8 m a (by simpa [Memory.backed] using h)

/-- The cells of the OUT view have strictly rising addresses. -/
theorem outCells_rising (s : State) : (outCells s).Pairwise fun a b => a.1 < b.1 := by
  unfold outCells
  split
  · exact List.pairwise_map.2 List.pairwise_lt_range
  · exact List.Pairwise.nil

end Sys2Proof.Machine
end

