-- ==== Sys2Proof/Laws/PerInstr.lean ====
section
/-! SUPPORT. Facts about each command as syntax, one lemma per constructor. -/

namespace Sys2Proof.Laws

namespace SourceForm

/-- The written form of a command passes the checks of 30_encoding.md R78 and stands for that command. -/
def Statement (i : Instr) : Prop := i.wellFormed = true ∧ i.source.toInstr = some i

theorem stat : Statement .stat := ⟨rfl, rfl⟩
theorem clr : Statement .clr := ⟨rfl, rfl⟩
theorem push (idx : WordIndex) : Statement (.push idx) := by
  have h := idx.isLt
  simp [Statement, Instr.wellFormed, Instr.source, Source.wellFormed, Source.problem, Source.toInstr, h]
theorem finS : Statement .finS := ⟨rfl, rfl⟩
theorem finL : Statement .finL := ⟨rfl, rfl⟩
theorem rdb (n : OutAddr) : Statement (.rdb n) := by
  have h := n.isLt
  simp [Statement, Instr.wellFormed, Instr.source, Source.wellFormed, Source.problem, Source.toInstr, h]
theorem rdl : Statement .rdl := ⟨rfl, rfl⟩
theorem rdc : Statement .rdc := ⟨rfl, rfl⟩

end SourceForm

namespace RowSelects

/-- The word of a command lies in the row of the command map that bears its mnemonic (30_encoding.md R72). -/
def Statement (i : Instr) : Prop :=
  ∃ r ∈ commandMap, r.mnemonic = i.source.mnemonic ∧ r.selects (encode i) = true

theorem stat : Statement .stat := ⟨⟨.STAT, 0x0000, 0xFFFF⟩, by simp [commandMap], rfl, rfl⟩
theorem clr : Statement .clr := ⟨⟨.CLR, 0x1000, 0xFFFF⟩, by simp [commandMap], rfl, rfl⟩
theorem push (idx : WordIndex) : Statement (.push idx) :=
  ⟨⟨.PUSH, 0x2000, 0xF800⟩, by simp [commandMap], rfl, by revert idx; decide +kernel⟩
theorem finS : Statement .finS := ⟨⟨.FINS, 0x3000, 0xFFFF⟩, by simp [commandMap], rfl, rfl⟩
theorem finL : Statement .finL := ⟨⟨.FINL, 0x3001, 0xFFFF⟩, by simp [commandMap], rfl, rfl⟩
theorem rdb (n : OutAddr) : Statement (.rdb n) :=
  ⟨⟨.RDB, 0x4000, 0xFFC0⟩, by simp [commandMap], rfl, by revert n; decide +kernel⟩
theorem rdl : Statement .rdl := ⟨⟨.RDL, 0x5000, 0xFFFF⟩, by simp [commandMap], rfl, rfl⟩
theorem rdc : Statement .rdc := ⟨⟨.RDC, 0x6000, 0xFFFF⟩, by simp [commandMap], rfl, rfl⟩

end RowSelects

end Sys2Proof.Laws
end

