-- ==== Sys2Proof/Laws/Words.lean ====
section
/-! SUPPORT. The fields of the three read-only words (10_state.md R31). -/

namespace Sys2Proof.Machine

/-- The low part of a concatenation (00_scope.md R8). -/
theorem extract_low {m n : Nat} (a : BitVec m) (b : BitVec n) : (a ++ b).extractLsb' 0 n = b := by
  refine BitVec.eq_of_getLsbD_eq fun i hi => ?_
  simp [BitVec.getLsbD_append, hi]

/-- A slice above the low part of a concatenation. -/
theorem extract_high {m n : Nat} (a : BitVec m) (b : BitVec n) (k l : Nat) :
    (a ++ b).extractLsb' (n + k) l = a.extractLsb' k l := by
  refine BitVec.eq_of_getLsbD_eq fun i hi => ?_
  have h : ¬ n + k + i < n := by omega
  have e : n + k + i - n = k + i := by omega
  simp [BitVec.getLsbD_append, h, e]

theorem extract_all {n : Nat} (a : BitVec n) : a.extractLsb' 0 n = a := by
  refine BitVec.eq_of_getLsbD_eq fun i hi => ?_
  simp [hi]

@[simp] theorem statusWord_phase (s : State) : (statusWord s).extractLsb' 0 2 = s.phase.code := extract_low _ _

@[simp] theorem statusWord_fcode (s : State) : (statusWord s).extractLsb' 2 2 = s.fcode.code :=
  (extract_high (n := 2) _ _ 0 2).trans (extract_low _ _)

@[simp] theorem statusWord_fmode (s : State) : (statusWord s).extractLsb' 4 1 = s.fmode.code :=
  (extract_high (n := 2) _ _ 2 1).trans ((extract_high (n := 2) _ _ 0 1).trans (extract_low _ _))

@[simp] theorem statusWord_perr (s : State) : (statusWord s).extractLsb' 5 1 = BitVec.ofBool s.perr :=
  (extract_high (n := 2) _ _ 3 1).trans ((extract_high (n := 2) _ _ 1 1).trans
    ((extract_high (n := 1) _ _ 0 1).trans (extract_low _ _)))

@[simp] theorem statusWord_reserved (s : State) : (statusWord s).extractLsb' 6 2 = 0 :=
  (extract_high (n := 2) _ _ 4 2).trans ((extract_high (n := 2) _ _ 2 2).trans
    ((extract_high (n := 1) _ _ 1 2).trans ((extract_high (n := 1) _ _ 0 2).trans (extract_low _ _))))

@[simp] theorem statusWord_wcnt (s : State) : (statusWord s).extractLsb' 8 8 = s.wcnt :=
  (extract_high (n := 2) _ _ 6 8).trans ((extract_high (n := 2) _ _ 4 8).trans
    ((extract_high (n := 1) _ _ 3 8).trans ((extract_high (n := 1) _ _ 2 8).trans
      ((extract_high (n := 2) _ _ 0 8).trans (extract_all _)))))

@[simp] theorem lenWord_olen (s : State) : (lenWord s).extractLsb' 0 6 = s.olen := extract_low _ _

@[simp] theorem lenWord_reserved (s : State) : (lenWord s).extractLsb' 6 1 = 0 :=
  (extract_high (n := 6) _ _ 0 1).trans (extract_low _ _)

@[simp] theorem lenWord_blen (s : State) : (lenWord s).extractLsb' 7 9 = BitVec.ofNat 9 s.bs.length :=
  (extract_high (n := 6) _ _ 1 9).trans ((extract_high (n := 1) _ _ 0 9).trans (extract_all _))

@[simp] theorem csumWord_csgot (s : State) : (csumWord s).extractLsb' 0 8 = s.csgot := extract_low _ _

@[simp] theorem csumWord_csexp (s : State) : (csumWord s).extractLsb' 8 8 = s.csexp :=
  (extract_high (n := 8) _ _ 0 8).trans (extract_all _)

/-- One bit of a word is its one-bit slice. -/
theorem getLsbD_of_extract {n : Nat} (v : BitVec n) (k : Nat) (b : Bool) (h : v.extractLsb' k 1 = BitVec.ofBool b) :
    v.getLsbD k = b := by
  have e := congrArg (fun w : BitVec 1 => w.getLsbD 0) h
  simpa using e

end Sys2Proof.Machine
end

