-- ==== Sys2Proof/Laws/Step.lean ====
section
/-! SUPPORT. What each meaning, a command word and a step can do, said once: every one answers a next state,
which is either the refused state or the accepted one. -/

namespace Sys2Proof.Machine

/-- What an accepted command leaves (30_encoding.md R76). -/
def accepted : Instr → State → State
  | .stat, s     => respond (statusWord s) s
  | .clr, s      => respond 0 (clearAll s)
  | .push idx, s => respond (zext16 (pushed idx s).wcnt) (pushed idx s)
  | .finS, s     => respond (statusWord (finalisedStrict s)) (finalisedStrict s)
  | .finL, s     => respond (statusWord (finalisedLenient s)) (finalisedLenient s)
  | .rdb n, s    => respond (zext16 (s.bs.outRead (outAddress n))) s
  | .rdl, s      => respond (lenWord s) s
  | .rdc, s      => respond (csumWord s) s

/-- What a command leaves. -/
def executed (i : Instr) (s : State) : State :=
  match refusal i s with
  | some e => raise e s
  | none => accepted i s

/-- Every command answers a next state: refused, or accepted. -/
theorem exec_eq (i : Instr) (s : State) : exec i s = .next (executed i s) := by
  cases i with
  | stat => rfl
  | clr => rfl
  | rdl => rfl
  | rdc => rfl
  | push idx => simp only [exec, execPush, executed, refusal]; split <;> rfl
  | finS => simp only [exec, execFinS, executed, refusal]; split <;> rfl
  | finL => simp only [exec, execFinL, executed, refusal]; split <;> rfl
  | rdb n =>
    simp only [exec, execRdb, executed, refusal]
    split
    · split <;> rfl
    · rfl

theorem executed_refused {i : Instr} {s : State} {e : ProtocolError} (h : refusal i s = some e) :
    executed i s = raise e s := by simp [executed, h]

theorem executed_accepted {i : Instr} {s : State} (h : refusal i s = none) : executed i s = accepted i s := by
  simp [executed, h]

/-- The response of an accepted command has ERR = 0. -/
theorem accepted_rsp (i : Instr) (s : State) : ∃ d, (accepted i s).rsp = some ⟨false, d⟩ := by
  cases i <;> exact ⟨_, rfl⟩

/-- What a command word leaves. -/
def issued (w : CommandWord) (s : State) : State :=
  match decode w with
  | .command i => executed i s
  | .illegal _ => raise .illegal s

theorem issue_eq (w : CommandWord) (s : State) : issue w s = .next (issued w s) := by
  cases h : decode w with
  | command i => simp only [issue, issued, h, exec_eq]
  | illegal e => simp only [issue, issued, h, refuseIllegal]

theorem issued_command {w : CommandWord} {i : Instr} (h : decode w = .command i) (s : State) :
    issued w s = executed i s := by simp [issued, h]

theorem issued_illegal {w : CommandWord} {e : Illegal} (h : decode w = .illegal e) (s : State) :
    issued w s = raise .illegal s := by simp [issued, h]

/-- What a step leaves. -/
def stepped (s : State) : State :=
  match s.inputs with
  | [] => s
  | .reset :: rest => { State.reset with inputs := rest }
  | .command w :: rest => issued w { s with inputs := rest }

theorem takeInput_eq {s : State} {x : HostInput} {rest : List HostInput} (h : s.inputs = x :: rest) :
    takeInput s = { s with inputs := rest } := by simp [takeInput, h]

/-- Every step answers a next state. -/
theorem step_eq (s : State) : step s = .next (stepped s) := by
  cases h : s.inputs with
  | nil => simp only [step, stepped, h, idle]
  | cons x rest =>
    cases x with
    | command w => simp only [step, stepped, h, takeInput_eq h, issue_eq]
    | reset => simp only [step, stepped, h, takeInput_eq h, applyReset]

theorem stepped_command {s : State} {w : CommandWord} {rest : List HostInput} (h : s.inputs = .command w :: rest) :
    stepped s = issued w { s with inputs := rest } := by simp [stepped, h]

theorem stepped_reset {s : State} {rest : List HostInput} (h : s.inputs = .reset :: rest) :
    stepped s = { State.reset with inputs := rest } := by simp [stepped, h]

/-! ## Runs and their responses -/

theorem stepResponse_command {s : State} {w : CommandWord} {rest : List HostInput}
    (h : s.inputs = .command w :: rest) (t : State) : stepResponse s t = t.rsp.toList := by simp [stepResponse, h]

theorem stepResponse_reset {s : State} {rest : List HostInput} (h : s.inputs = .reset :: rest) (t : State) :
    stepResponse s t = [] := by simp [stepResponse, h]

theorem stepResponse_idle {s : State} (h : s.inputs = []) (t : State) : stepResponse s t = [] := by
  simp [stepResponse, h]

theorem run_succ (k : Nat) (s : State) : run (k + 1) s = run k (stepped s) := by simp [run, step_eq]

theorem responses_succ (k : Nat) (s : State) :
    responses (k + 1) s = stepResponse s (stepped s) ++ responses k (stepped s) := by simp [responses, step_eq]

/-- Idle steps list nothing. -/
theorem responses_idle {s : State} (h : s.inputs = []) (k : Nat) : responses k s = [] := by
  induction k with
  | zero => rfl
  | succ k ih =>
    have hs : stepped s = s := by simp [stepped, h]
    rw [responses_succ, stepResponse_idle h, hs, ih]; rfl

/-! ## The pieces of `PUSH` and of a finalise -/

@[simp] theorem storeIndex_wcnt (idx : WordIndex) (s : State) : (storeIndex idx s).wcnt = s.wcnt := by
  unfold storeIndex; split <;> rfl
@[simp] theorem storeIndex_phase (idx : WordIndex) (s : State) : (storeIndex idx s).phase = s.phase := by
  unfold storeIndex; split <;> rfl
@[simp] theorem storeIndex_fmode (idx : WordIndex) (s : State) : (storeIndex idx s).fmode = s.fmode := by
  unfold storeIndex; split <;> rfl
@[simp] theorem storeIndex_fcode (idx : WordIndex) (s : State) : (storeIndex idx s).fcode = s.fcode := by
  unfold storeIndex; split <;> rfl
@[simp] theorem storeIndex_olen (idx : WordIndex) (s : State) : (storeIndex idx s).olen = s.olen := by
  unfold storeIndex; split <;> rfl
@[simp] theorem storeIndex_csgot (idx : WordIndex) (s : State) : (storeIndex idx s).csgot = s.csgot := by
  unfold storeIndex; split <;> rfl
@[simp] theorem storeIndex_csexp (idx : WordIndex) (s : State) : (storeIndex idx s).csexp = s.csexp := by
  unfold storeIndex; split <;> rfl
@[simp] theorem storeIndex_perr (idx : WordIndex) (s : State) : (storeIndex idx s).perr = s.perr := by
  unfold storeIndex; split <;> rfl
@[simp] theorem storeIndex_inputs (idx : WordIndex) (s : State) : (storeIndex idx s).inputs = s.inputs := by
  unfold storeIndex; split <;> rfl

/-- The count after a push, as a number (40_accumulate.md R92). -/
@[simp] theorem toNat_nextCount (c : BitVec 8) : (nextCount c).toNat = min (c.toNat + 1) 255 := by
  have h := c.isLt
  simp only [nextCount, Config.wcntMax, BitVec.toNat_ofNat]
  omega

@[simp] theorem pushed_phase (idx : WordIndex) (s : State) : (pushed idx s).phase = s.phase := by simp [pushed]
@[simp] theorem pushed_fmode (idx : WordIndex) (s : State) : (pushed idx s).fmode = s.fmode := by simp [pushed]
@[simp] theorem pushed_fcode (idx : WordIndex) (s : State) : (pushed idx s).fcode = s.fcode := by simp [pushed]
@[simp] theorem pushed_olen (idx : WordIndex) (s : State) : (pushed idx s).olen = s.olen := by simp [pushed]
@[simp] theorem pushed_csgot (idx : WordIndex) (s : State) : (pushed idx s).csgot = s.csgot := by simp [pushed]
@[simp] theorem pushed_csexp (idx : WordIndex) (s : State) : (pushed idx s).csexp = s.csexp := by simp [pushed]
@[simp] theorem pushed_perr (idx : WordIndex) (s : State) : (pushed idx s).perr = s.perr := by simp [pushed]
@[simp] theorem pushed_inputs (idx : WordIndex) (s : State) : (pushed idx s).inputs = s.inputs := by simp [pushed]
@[simp] theorem pushed_wcnt (idx : WordIndex) (s : State) : (pushed idx s).wcnt = nextCount s.wcnt := by simp [pushed]

theorem pushed_bs_stored (idx : WordIndex) (s : State) (h : s.wcnt.toNat < 24) :
    (pushed idx s).bs = s.bs ++ indexBits idx := by
  simp [pushed, storeIndex, Config.wmax, h, Memory.append]

theorem pushed_bs_full (idx : WordIndex) (s : State) (h : 24 ≤ s.wcnt.toNat) : (pushed idx s).bs = s.bs := by
  have h' : ¬ s.wcnt.toNat < 24 := by omega
  simp [pushed, storeIndex, Config.wmax, h']

/-- What an accepted `FIN.S` can leave: one of three outcomes (41_finalize.md R111). -/
theorem finalisedStrict_cases (s : State) :
    (validWordCount s.wcnt.toNat = false ∧ finalisedStrict s = failCount .strict s) ∨
    (validWordCount s.wcnt.toNat = true ∧
      checksumGot s.wcnt.toNat s.bs = checksumExpected s.wcnt.toNat s.bs ∧
      finalisedStrict s = succeed .strict (strictOlen s.wcnt.toNat) (latchChecksums s.wcnt.toNat s)) ∨
    (validWordCount s.wcnt.toNat = true ∧
      checksumGot s.wcnt.toNat s.bs ≠ checksumExpected s.wcnt.toNat s.bs ∧
      finalisedStrict s = failChecksum (latchChecksums s.wcnt.toNat s)) := by
  unfold finalisedStrict
  cases hv : validWordCount s.wcnt.toNat with
  | false => exact .inl ⟨rfl, by simp⟩
  | true =>
    by_cases he : checksumGot s.wcnt.toNat s.bs = checksumExpected s.wcnt.toNat s.bs
    · exact .inr (.inl ⟨rfl, he, by simp [compareChecksums, he]⟩)
    · exact .inr (.inr ⟨rfl, he, by simp [compareChecksums, he]⟩)

/-- What an accepted `FIN.L` can leave: one of two outcomes (41_finalize.md R112). -/
theorem finalisedLenient_cases (s : State) :
    (validWordCount s.wcnt.toNat = false ∧ finalisedLenient s = failCount .lenient s) ∨
    (validWordCount s.wcnt.toNat = true ∧
      finalisedLenient s = succeed .lenient (lenientOlen s.wcnt.toNat) s) := by
  unfold finalisedLenient
  cases hv : validWordCount s.wcnt.toNat <;> simp

/-- The five valid word counts (41_finalize.md R113). -/
theorem validWordCount_iff_mem (n : Nat) : validWordCount n = true ↔ n ∈ [12, 15, 18, 21, 24] := by
  simp [validWordCount, Config.validWordCounts]

end Sys2Proof.Machine
end

