-- ==== Sys2Proof/Tests/Slice0.lean ====
section
/-! SUPPORT. The model's own tests, with expected values from spec/, and for every obligation with hypotheses
a state and operands that meet them. -/

open Sys2Proof Sys2Proof.Machine

namespace Sys2Proof.Tests

/-! ## Small states -/

/-- `n` indices 0 pushed since reset. -/
def counted (n : Nat) : State :=
  { State.reset with bs := phraseBits (List.replicate (min n 24) 0), wcnt := BitVec.ofNat 8 n }

/-- Eleven indices 0 and a last one pushed since reset (95_test_vectors.md S1 has last = 3). -/
def twelve (last : WordIndex) : State :=
  { State.reset with bs := phraseBits (List.replicate 11 0 ++ [last]), wcnt := 12 }

/-- The all-zero phrase after `FIN.S`. -/
def okStrict : State := { twelve 3 with phase := .ok, olen := 16, csgot := 3, csexp := 3 }

/-- The all-zero phrase after `FIN.L`. -/
def okLenient : State := { twelve 3 with phase := .ok, fmode := .lenient, olen := 17 }

/-- The phrase with last index 2 after `FIN.S`. -/
def failSum : State := { twelve 2 with phase := .fail, fcode := .checksumMismatch, csgot := 2, csexp := 3 }

/-- The empty phrase after `FIN.L`. -/
def failCountState : State :=
  { State.reset with phase := .fail, fmode := .lenient, fcode := .invalidWordCount }

/-- The host gives one word. -/
def given (w : CommandWord) (s : State) : State := { s with inputs := [.command w] }

/-- The response a command leaves. -/
def answer (i : Instr) (s : State) : Option Response := (executed i s).rsp

/-! ## WellFormed -/

theorem test_wf_missing : Source.problem ⟨.PUSH, none⟩ = some .missingOperand ∧
    Source.wellFormed ⟨.RDB, none⟩ = false ∧ Source.toInstr ⟨.RDB, none⟩ = none := by decide
theorem test_wf_unexpected : Source.problem ⟨.STAT, some 0⟩ = some .unexpectedOperand ∧
    Source.wellFormed ⟨.FINS, some 0⟩ = false ∧ Source.toInstr ⟨.CLR, some 1⟩ = none := by decide
theorem test_wf_index : Source.problem ⟨.PUSH, some 2048⟩ = some .indexOutOfRange ∧
    Source.wellFormed ⟨.PUSH, some 2047⟩ = true ∧ Source.toInstr ⟨.PUSH, some 2048⟩ = none := by decide
theorem test_wf_address : Source.problem ⟨.RDB, some 64⟩ = some .addressOutOfRange ∧
    Source.wellFormed ⟨.RDB, some 63⟩ = true ∧ Source.toInstr ⟨.RDB, some 64⟩ = none := by decide

/-! ## Decoding: words written out from the formats of 30_encoding.md R71 -/

theorem test_decode_stat : decode 0b0000000000000000 = .command .stat := by decide
theorem test_decode_clr : decode 0b0001000000000000 = .command .clr := by decide
theorem test_decode_push : decode 0b0010010000000001 = .command (.push 1025) := by decide
theorem test_decode_finS : decode 0b0011000000000000 = .command .finS := by decide
theorem test_decode_finL : decode 0b0011000000000001 = .command .finL := by decide
theorem test_decode_rdb : decode 0b0100000000100001 = .command (.rdb 33) := by decide
theorem test_decode_rdl : decode 0b0101000000000000 = .command .rdl := by decide
theorem test_decode_rdc : decode 0b0110000000000000 = .command .rdc := by decide
theorem test_decode_illegal :
    [0x0001, 0x1800, 0x2800, 0x3002, 0x4040, 0x5100, 0x6001, 0x7000, 0xFFFF].map decode =
      [.illegal .operandBits, .illegal .operandBits, .illegal .indexBit11, .illegal .modeBits,
       .illegal .addressBits, .illegal .operandBits, .illegal .operandBits, .illegal .undefinedOp,
       .illegal .undefinedOp] := by decide
theorem test_table_word : decodeTableWord 16 0x27FF = some (.push 2047) ∧ decodeTableWord 16 0x2800 = none := by
  decide

/-! ## One step: the listing examples of the command rules -/

theorem test_stat : answer .stat State.reset = some ⟨false, 0x0000⟩ ∧
    answer .stat (counted 12) = some ⟨false, 0x0C00⟩ := by decide
theorem test_clr : answer .clr failSum = some ⟨false, 0⟩ ∧
    { executed .clr failSum with rsp := none } = State.reset := by decide
theorem test_push : answer (.push 2047) State.reset = some ⟨false, 1⟩ ∧
    (executed (.push 2047) State.reset).bs = List.replicate 11 true := by decide
theorem test_push_full : answer (.push 2047) (counted 24) = some ⟨false, 25⟩ ∧
    (executed (.push 2047) (counted 24)).bs = (counted 24).bs := by decide +kernel
theorem test_finS : answer .finS (twelve 3) = some ⟨false, 0x0C01⟩ ∧ executed .finS (twelve 3) =
    { okStrict with rsp := some ⟨false, 0x0C01⟩ } := by decide +kernel
theorem test_finS_mismatch : answer .finS (twelve 2) = some ⟨false, 0x0C0A⟩ ∧
    (executed .finS (twelve 2)).csexp = 3 := by decide +kernel
theorem test_finL : answer .finL (twelve 3) = some ⟨false, 0x0C11⟩ ∧
    (executed .finL (twelve 3)).olen = 17 := by decide +kernel
theorem test_finL_empty : answer .finL State.reset = some ⟨false, 0x0016⟩ ∧
    answer .finL okStrict = some ⟨true, 2⟩ := by decide
theorem test_rdb : answer (.rdb 16) okLenient = some ⟨false, 0x0030⟩ := by decide +kernel
theorem test_rdb_refused : answer (.rdb 16) okStrict = some ⟨true, 4⟩ ∧
    answer (.rdb 0) failSum = some ⟨true, 3⟩ := by decide
theorem test_rdl : answer .rdl okStrict = some ⟨false, 0x4210⟩ ∧ answer .rdl okLenient = some ⟨false, 0x4211⟩ := by
  decide +kernel
theorem test_rdc : answer .rdc okStrict = some ⟨false, 0x0303⟩ ∧ answer .rdc failSum = some ⟨false, 0x0302⟩ := by
  decide
theorem test_illegal : stepped (given 0x2800 okStrict) = { okStrict with perr := true, rsp := some ⟨true, 1⟩ } := by
  decide +kernel
theorem test_fetch : (stepped (State.reset.withFetchWord 16 0x27FF)).rsp = some ⟨false, 1⟩ := by decide

/-- One command, then an idle step: one response (30_encoding.md R76, log 1). -/
theorem test_idle_response : responses 2 (given 0x0000 State.reset) = [⟨false, 0⟩] := by decide

/-- 42_sha256.md R139, third line; 40_accumulate.md R94, the worked trace. -/
theorem test_digest : Sha256.digestByte0 (List.replicate 16 0) = 0x37 := by decide +kernel
theorem test_trace : [0x7FF, 0x000, 0x555].foldl Accumulator.push ⟨[], 0, 0⟩ = ⟨[0xFF, 0xE0, 0x02, 0xAA], 1, 1⟩ := by
  decide +kernel

/-- 30_encoding.md R78. -/
theorem test_listing : listingLine (.push 3) ⟨false, 0x000C⟩ = "0x2003  PUSH 3  -> 0:0x000C".toList := by
  decide +kernel
theorem test_parse : ["PUSH 0x7FF", "RDB 64", "; only a comment", "FIN.S 1", "CLR   ; open"].map
      (fun l => parseLine l.toList) =
    [.command (.push 2047), .error (.source .addressOutOfRange), .blank, .error (.source .unexpectedOperand),
     .command .clr] := by decide +kernel

/-! ## Witnesses: for every obligation with hypotheses, what meets them, clause by clause -/

theorem inv_counted : StateInv (counted 0) ∧ StateInv (counted 23) ∧ StateInv (counted 24) ∧ StateInv (counted 255) :=
  ⟨⟨by decide, by decide, by decide, by decide, by decide, by decide⟩,
   ⟨by decide +kernel, by decide, by decide, by decide, by decide, by decide⟩,
   ⟨by decide +kernel, by decide, by decide, by decide, by decide, by decide⟩,
   ⟨by decide +kernel, by decide, by decide, by decide, by decide, by decide⟩⟩

theorem inv_twelve : StateInv (twelve 3) ∧ StateInv (twelve 2) :=
  ⟨⟨by decide +kernel, by decide, by decide, by decide, by decide, by decide⟩,
   ⟨by decide +kernel, by decide, by decide, by decide, by decide, by decide⟩⟩

theorem inv_ok : StateInv okStrict ∧ StateInv okLenient :=
  ⟨⟨by decide +kernel, by decide, by decide, by decide +kernel, by decide, by decide +kernel⟩,
   ⟨by decide +kernel, by decide, by decide, by decide +kernel, by decide, by decide +kernel⟩⟩

theorem inv_fail : StateInv failSum ∧ StateInv failCountState :=
  ⟨⟨by decide +kernel, by decide, by decide, by decide, by decide +kernel, by decide +kernel⟩,
   ⟨by decide, by decide, by decide, by decide, by decide, by decide⟩⟩

theorem inv_given {s : State} (w : CommandWord) (h : StateInv s) : StateInv (given w s) :=
  ⟨h.length, h.codes, h.accum, h.ok, h.fail, h.width⟩

/-- Every command and every step of a state has a next state. -/
theorem next_exec (i : Instr) (s : State) : ∃ t, exec i s = .next t := ⟨_, exec_eq i s⟩
theorem next_step (s : State) : ∃ t, step s = .next t := ⟨_, step_eq s⟩

theorem witness_CommandMapIsExact : ∃ r ∈ commandMap, r.selects 0x27FF = true ∧ r.selects 0x2000 = true :=
  ⟨⟨.PUSH, 0x2000, 0xF800⟩, by decide, by decide, by decide⟩

theorem witness_IllegalWordsAreRefused :
    (given 0x7000 okStrict).inputs = .command 0x7000 :: [] ∧
    (∀ r ∈ commandMap, r.selects 0x7000 = false) ∧
    (∀ r ∈ commandMap, r.selects 0xFFFF = false) ∧
    (∀ r ∈ commandMap, r.selects 0x0001 = false) ∧
    (∀ r ∈ commandMap, r.selects 0x1800 = false) ∧
    (∀ r ∈ commandMap, r.selects 0x5100 = false) ∧
    (∀ r ∈ commandMap, r.selects 0x6001 = false) ∧
    (∀ r ∈ commandMap, r.selects 0x2800 = false) ∧
    (∀ r ∈ commandMap, r.selects 0x3002 = false) ∧
    (∀ r ∈ commandMap, r.selects 0x4040 = false) := by decide

theorem witness_StepRunsTheDecodedCommand : (given 0x27FF okStrict).inputs = .command 0x27FF :: [] ∧
    decode 0x27FF = .command (.push 2047) := by decide

theorem witness_IdleStepChangesNothing : State.reset.inputs = [] := rfl

theorem witness_CommandsTakeEffectInIssueOrder :
    (∃ t, run 1 (given 0x2003 State.reset) = .next t) ∧
    (given 0x2003 State.reset).inputs = .command 0x2003 :: [] ∧
    SameComponents (given 0x2003 State.reset) { State.reset with inputs := [.command 0x2003, .reset] } ∧
    (∃ t, step (given 0x2003 State.reset) = .next t) ∧
    (∃ t, step { State.reset with inputs := [.command 0x2003, .reset] } = .next t) :=
  ⟨⟨_, rfl⟩, rfl, ⟨rfl, rfl, rfl, rfl, rfl, rfl, rfl, rfl, rfl⟩, next_step _, next_step _⟩

theorem witness_RunsNeverGetStuck :
    ({ State.reset with inputs := [.command 0x0000, .command 0x7000] } : State).inputs =
      wordInputs [0x0000, 0x7000] ++ [] := by decide

theorem witness_EveryCommandGetsItsResponse :
    (stepped (given 0x0000 okStrict)).rsp = some ⟨false, 0x0C01⟩ ∧
    (stepped (given 0x7000 okStrict)).rsp = some ⟨true, 1⟩ ∧ (stepped (given 0x2000 okStrict)).rsp = some ⟨true, 2⟩ ∧
    (stepped (given 0x4000 failSum)).rsp = some ⟨true, 3⟩ ∧ (stepped (given 0x4010 okStrict)).rsp = some ⟨true, 4⟩ ∧
    (counted 0).phase = .accum ∧ decode 0x3000 = .command .finS ∧ decode 0x3001 = .command .finL := by decide +kernel

theorem witness_ResetReachesTheResetState :
    ({ failSum with inputs := [.reset] } : State).inputs = .reset :: [] ∧ ∃ v, exec .clr okStrict = .next v :=
  ⟨rfl, next_exec _ _⟩

theorem witness_ResetAbandonsTheCommand :
    ({ twelve 3 with inputs := [.command 0x3000, .reset] } : State).inputs = .command 0x3000 :: .reset :: [] := rfl

theorem witness_ClrRestoresTheResetState : (∃ t, exec .clr failSum = .next t) ∧
    (given 0x2000 failSum).inputs = .command 0x2000 :: [] ∧ (0x2000 : CommandWord) ≠ 0x1000 ∧
    (given 0x2000 failSum).phase ≠ .accum ∧ (given 0x2000 okStrict).phase ≠ .accum ∧
    ∃ t, step (given 0x2000 failSum) = .next t :=
  ⟨next_exec _ _, rfl, by decide, by decide, by decide, next_step _⟩

theorem witness_PushAppendsOneIndex :
    okStrict.phase ≠ .accum ∧ failSum.phase ≠ .accum ∧
    (counted 0).phase = .accum ∧ (counted 0).wcnt.toNat < 24 ∧
    (counted 23).phase = .accum ∧ (counted 23).wcnt.toNat < 24 ∧
    (counted 24).phase = .accum ∧ 24 ≤ (counted 24).wcnt.toNat ∧
    (counted 255).phase = .accum ∧ 24 ≤ (counted 255).wcnt.toNat := by decide

theorem witness_PushBeyondCapacityIsCountedOnly :
    (StateInv (counted 24) ∧ (counted 24).phase = .accum ∧ 24 ≤ (counted 24).wcnt.toNat) ∧
    (StateInv (counted 255) ∧ (counted 255).phase = .accum ∧ 24 ≤ (counted 255).wcnt.toNat) ∧
    (24 < (given 0x27FF (counted 25)).wcnt.toNat ∧ (given 0x27FF (counted 25)).inputs = .command 0x27FF :: [] ∧
      (0x27FF : CommandWord) ≠ 0x1000 ∧ ∃ t, step (given 0x27FF (counted 25)) = .next t) ∧
    24 < (counted 25).wcnt.toNat ∧ (counted 25).phase = .accum :=
  ⟨⟨inv_counted.2.2.1, by decide, by decide⟩, ⟨inv_counted.2.2.2, by decide, by decide⟩,
   ⟨by decide, by decide, by decide, next_step _⟩, by decide, by decide⟩

/-- A refused word, an accepted push, a finalise and a push refused after it, for the last clause and for
indices 0 and 23 of a full window. -/
theorem witness_BitStringHoldsTheAcceptedIndices :
    (∀ w ∈ ([0x2003, 0x7000, 0x3000, 0x2001] : List CommandWord), w ≠ 0x1000) ∧
    windowIndices [0x2003, 0x7000, 0x3000, 0x2001] = [3] ∧
    (windowIndices (List.replicate 25 0x2005))[0]? = some 5 ∧
    (windowIndices (List.replicate 25 0x2005))[23]? = some 5 ∧
    State.reset.phase = .accum ∧ State.reset.bs = [] ∧ State.reset.wcnt = 0 :=
  ⟨by simp, by decide, by decide, by decide, by decide, by decide, by decide⟩

theorem witness_PushFrame :
    (∃ t, exec (.push 5) (counted 23) = .next t) ∧ (counted 23).phase = .accum ∧
    (∃ t, exec (.push 5) okStrict = .next t) ∧ okStrict.phase ≠ .accum ∧
    0 < (counted 23).bs.length ∧ (counted 23).bs.appendAt / 8 = 31 ∧
    byteCount ((counted 23).bs.appendAt + 11) = 33 :=
  ⟨next_exec _ _, by decide +kernel, next_exec _ _, by decide +kernel, by decide +kernel, by decide +kernel, by decide +kernel⟩

theorem witness_OutReadPacksMsbFirst :
    0 < ((twelve 3).bs.length + 7) / 8 ∧ 16 < ((twelve 3).bs.length + 7) / 8 ∧ ¬ 17 < ((twelve 3).bs.length + 7) / 8 ∧
    0 < 8 ∧ 7 < 8 := by decide +kernel

theorem witness_MixedWidthRead :
    0 < 8 ∧ ([5, 6, 7] : List WordIndex)[(8 * 0 + 0) / 11]? = some 5 ∧
    7 < 8 ∧ ([5, 6, 7] : List WordIndex)[(8 * 3 + 7) / 11]? = some 7 ∧
    ([0, 1, 2, 3, 4, 5, 6, 7] : List WordIndex).length = 8 := by decide

theorem witness_StreamingFormAgrees :
    (∀ n ∈ [12, 15, 18, 21], (counted n).bs.length = 11 * n) ∧ (counted 24).bs.length = 264 := by decide +kernel

theorem witness_SegmentLengths : ∀ n ∈ [12, 15, 18, 21, 24], validWordCount n = true := by decide

/-- A phrase that passes, one that fails, and one of 24 words. -/
theorem witness_StrictFinalise :
    (okStrict.phase ≠ .accum ∧ failSum.phase ≠ .accum) ∧
    (∀ n ∈ [0, 11, 13, 25, 255], (counted n).phase = .accum ∧ (counted n).wcnt.toNat ∉ [12, 15, 18, 21, 24]) ∧
    (StateInv (twelve 3) ∧ (twelve 3).phase = .accum ∧ (twelve 3).wcnt.toNat = 12 ∧
      (3 : Byte) = (Sha256.digest (pack8 ((twelve 3).bs.take 128))).getD 0 0 >>> 4 ∧
      (3 : Byte).toNat = val (((twelve 3).bs.drop 128).take 4)) ∧
    (StateInv (twelve 2) ∧ (twelve 2).phase = .accum ∧ (twelve 2).wcnt.toNat = 12 ∧
      (3 : Byte) = (Sha256.digest (pack8 ((twelve 2).bs.take 128))).getD 0 0 >>> 4 ∧
      (2 : Byte).toNat = val (((twelve 2).bs.drop 128).take 4)) ∧
    (StateInv (counted 24) ∧ (counted 24).phase = .accum ∧ (counted 24).wcnt.toNat = 24 ∧
      (0x66 : Byte) = (Sha256.digest (pack8 ((counted 24).bs.take 256))).getD 0 0 >>> 0 ∧
      (0 : Byte).toNat = val (((counted 24).bs.drop 256).take 8)) :=
  ⟨by decide, by decide, ⟨inv_twelve.1, by decide +kernel⟩, ⟨inv_twelve.2, by decide +kernel⟩,
   ⟨inv_counted.2.2.1, by decide +kernel⟩⟩

theorem witness_LenientFinalise :
    (okStrict.phase ≠ .accum ∧ failSum.phase ≠ .accum) ∧
    (∀ n ∈ [0, 11, 13, 25, 255], (counted n).phase = .accum ∧ (counted n).wcnt.toNat ∉ [12, 15, 18, 21, 24]) ∧
    (∀ n ∈ [12, 15, 18, 21, 24], (counted n).phase = .accum ∧ (counted n).wcnt.toNat ∈ [12, 15, 18, 21, 24]) ∧
    StateInv (twelve 3) := ⟨by decide, by decide, by decide, inv_twelve.1⟩

theorem witness_WordCountIsCheckedFirst :
    (twelve 3).phase = .accum ∧ (∃ t, exec .finS (twelve 3) = .next t) ∧ (∃ t, exec .finL (twelve 3) = .next t) ∧
    (counted 0).phase = .accum ∧ (∃ t, exec .finS (counted 0) = .next t) ∧
    (counted 0).wcnt.toNat ∉ [12, 15, 18, 21, 24] ∧ StateInv (counted 0) ∧
    (executed .finS (twelve 2)).fcode = .checksumMismatch :=
  ⟨by decide, next_exec _ _, next_exec _ _, by decide, next_exec _ _, by decide, inv_counted.1, by decide +kernel⟩

theorem witness_SplitOfThePhrase : ∀ n ∈ [12, 15, 18, 21, 24], validWordCount n = true ∧
    (counted n).bs.length = 11 * n := by decide +kernel

theorem witness_CompareIsOfLeadingDigestBits : ∀ n ∈ [12, 15, 18, 21, 24], validWordCount n = true ∧
    (counted n).bs.length = 11 * n := by decide +kernel

theorem witness_FinaliseFrame :
    (∃ t, exec .finS (twelve 3) = .next t) ∧ (∃ t, exec .finL (twelve 3) = .next t) ∧ (twelve 3).phase = .accum ∧
    (∃ t, exec .finS okStrict = .next t) ∧ okStrict.phase ≠ .accum :=
  ⟨next_exec _ _, next_exec _ _, by decide, next_exec _ _, by decide⟩

/-- Row by row of 41_finalize.md R118. -/
theorem witness_PhaseTransitions :
    (∃ t, step { failSum with inputs := [.reset] } = .next t) ∧ (∃ t, step (given 0x1000 failSum) = .next t) ∧
    decode 0x1000 = .command .clr ∧ decode 0x27FF = .command (.push 2047) ∧ (counted 0).phase = .accum ∧
    decode 0x3000 = .command .finS ∧ (counted 11).wcnt.toNat ∉ [12, 15, 18, 21, 24] ∧
    (executed .finS (twelve 2)).csgot ≠ (executed .finS (twelve 2)).csexp ∧
    (executed .finS (twelve 3)).csgot = (executed .finS (twelve 3)).csexp ∧
    (twelve 3).wcnt.toNat ∈ [12, 15, 18, 21, 24] ∧ decode 0x3001 = .command .finL ∧
    okStrict.phase ≠ .accum ∧ failSum.phase ≠ .accum ∧ decode 0x0000 = .command .stat ∧
    decode 0x5000 = .command .rdl ∧ decode 0x6000 = .command .rdc ∧ decode 0x4000 = .command (.rdb 0) ∧
    decode 0xFFFF = .illegal .undefinedOp :=
  ⟨next_step _, next_step _, by decide +kernel⟩

theorem witness_StrictRoundTrip : ∀ m ∈ [4, 8], ∃ (s : State) (rest : List HostInput) (e : List Byte)
    (bits : BitSeq) (idxs : List WordIndex), m ∈ [4, 5, 6, 7, 8] ∧ e.length = 4 * m ∧
    bits = e.flatMap bitsMsb ++ ((Sha256.digest e).flatMap bitsMsb).take m ∧
    idxs = (List.range (3 * m)).map (fun k => BitVec.ofNat 11 (val ((bits.drop (11 * k)).take 11))) ∧
    s.inputs = hostInputs (phraseInstrs .strict idxs) ++ rest := by
  intro m hm
  refine ⟨{ State.reset with inputs := hostInputs (phraseInstrs .strict _) ++ [] }, [], List.replicate (4 * m) 0x5A,
    _, _, ?_, by simp, rfl, rfl, rfl⟩
  revert m; decide

theorem witness_ChecksumSensitivity :
    (twelve 3).phase = .accum ∧ validWordCount (twelve 3).wcnt.toNat = true ∧
    (twelve 3).bs.length = 11 * (twelve 3).wcnt.toNat ∧ exec .finS (twelve 3) = .next (executed .finS (twelve 3)) ∧
    (executed .finS (twelve 3)).phase = .ok ∧ entBits (twelve 3).wcnt.toNat ≤ 128 ∧
    (twelve 3).bs[128]? = some false ∧ entBits (twelve 3).wcnt.toNat ≤ 131 ∧ (twelve 3).bs[131]? = some true :=
  ⟨by decide, by decide, by decide +kernel, exec_eq _ _, by decide +kernel⟩

theorem witness_WindowsAreIdempotent :
    ({ failSum with inputs := wordInputs [0x1000, 0x2003] ++ [] } : State).inputs =
      wordInputs (0x1000 :: [0x2003]) ++ [] ∧
    (∃ t, run 2 { failSum with inputs := wordInputs [0x1000, 0x2003] ++ [] } = .next t) ∧
    ({ counted 3 with inputs := wordInputs [0x1000, 0x2003] ++ [.reset] } : State).inputs =
      wordInputs (0x1000 :: [0x2003]) ++ [.reset] ∧
    (∃ t, run 2 { counted 3 with inputs := wordInputs [0x1000, 0x2003] ++ [.reset] } = .next t) :=
  ⟨rfl, ⟨_, rfl⟩, rfl, ⟨_, rfl⟩⟩

theorem witness_StrictResultIsPrefixOfLenient :
    StateInv (twelve 3) ∧ (twelve 3).phase = .accum ∧ exec .finS (twelve 3) = .next (executed .finS (twelve 3)) ∧
    (executed .finS (twelve 3)).phase = .ok ∧ ∃ u, exec .finL (twelve 3) = .next u :=
  ⟨inv_twelve.1, by decide, exec_eq _ _, by decide +kernel, next_exec _ _⟩

theorem witness_BlockComputesTheSourceDecode (mode : Mode) : ∃ s : State,
    s.inputs = hostInputs (phraseInstrs mode [3, 2047]) ++ [.reset] :=
  ⟨{ okStrict with inputs := hostInputs (phraseInstrs mode [3, 2047]) ++ [.reset] }, rfl⟩

theorem witness_HashWordFunctions : 0 < 1 ∧ 1 < 32 ∧ 0 < 31 ∧ 31 < 32 ∧ 0 < 32 := by decide

theorem witness_PaddingAndParsing : 8 * (List.replicate 16 (0 : Byte)).length < 2 ^ 64 ∧
    8 * ([] : List Byte).length < 2 ^ 64 ∧ 0 < 16 ∧ 15 < 16 := by decide

theorem witness_MessageSchedule : 15 < 16 ∧ 16 ≤ 16 ∧ 16 < 64 ∧ 16 ≤ 63 ∧ 63 < 64 := by decide

theorem witness_EntropyIsHashedInOneBlock :
    (List.replicate 16 (0 : Byte)).length ∈ [16, 20, 24, 28, 32] ∧
    (List.replicate 32 (0 : Byte)).length ∈ [16, 20, 24, 28, 32] := by decide

theorem witness_DigestHasThirtyTwoBytes : ∀ m : List Byte, ∃ x y,
    [(Sha256.hashValue m).a, (Sha256.hashValue m).b, (Sha256.hashValue m).c, (Sha256.hashValue m).d,
     (Sha256.hashValue m).e, (Sha256.hashValue m).f, (Sha256.hashValue m).g, (Sha256.hashValue m).h][0]? = some x ∧
    [(Sha256.hashValue m).a, (Sha256.hashValue m).b, (Sha256.hashValue m).c, (Sha256.hashValue m).d,
     (Sha256.hashValue m).e, (Sha256.hashValue m).f, (Sha256.hashValue m).g, (Sha256.hashValue m).h][7]? = some y ∧
    0 < 32 ∧ 31 < 32 := fun _ => ⟨_, _, rfl, rfl, by decide, by decide⟩

theorem witness_LengthReadout : StateInv okStrict ∧ StateInv failSum ∧ failSum.phase ≠ .ok :=
  ⟨inv_ok.1, inv_fail.1, by decide⟩

theorem witness_ChecksumReadout : StateInv okLenient ∧ ¬ Hashed okLenient ∧ StateInv okStrict ∧ Hashed okStrict ∧
    okStrict.phase = .ok ∧ StateInv failSum ∧ failSum.fcode = .checksumMismatch ∧ failSum.phase = .fail :=
  ⟨inv_ok.2, fun h => absurd h.2.1 (by decide), inv_ok.1, ⟨by decide, by decide, by decide⟩, by decide, inv_fail.1,
   by decide, by decide⟩

theorem witness_ByteReadout :
    (counted 0).phase ≠ .ok ∧ failSum.phase ≠ .ok ∧
    (okStrict.phase = .ok ∧ okStrict.olen.toNat ≤ (16 : OutAddr).toNat ∧ okStrict.olen.toNat ≤ (63 : OutAddr).toNat) ∧
    (StateInv okStrict ∧ (0 : OutAddr).toNat < okStrict.olen.toNat ∧ (15 : OutAddr).toNat < okStrict.olen.toNat) ∧
    (StateInv okLenient ∧ okLenient.phase = .ok ∧ (16 : OutAddr).toNat < okLenient.olen.toNat) ∧
    33 ≤ (33 : OutAddr).toNat ∧ 33 ≤ (63 : OutAddr).toNat ∧ StateInv (counted 0) ∧
    okStrict.fmode = .strict ∧ okLenient.fmode = .lenient :=
  ⟨by decide, by decide, by decide, ⟨inv_ok.1, by decide, by decide⟩, ⟨inv_ok.2, by decide, by decide⟩, by decide,
   by decide, inv_counted.1, by decide, by decide⟩

theorem witness_BytesAreReadableOnlyAfterSuccess :
    (∃ t, exec (.rdb 15) okStrict = .next t) ∧ (∃ t, exec (.rdb 16) okStrict = .next t) ∧
    ∃ t, exec (.rdb 0) failSum = .next t := ⟨next_exec _ _, next_exec _ _, next_exec _ _⟩

theorem witness_ReadoutFrame :
    (executed (.rdb 15) okStrict).rsp = some ⟨false, 0⟩ ∧ (executed (.rdb 16) okStrict).rsp = some ⟨true, 4⟩ ∧
    (executed .stat okStrict).rsp = some ⟨false, 0x0C01⟩ ∧ (∃ t, exec .rdl okStrict = .next t) ∧
    ∃ t, exec .rdc okStrict = .next t :=
  ⟨by decide +kernel, by decide, by decide, next_exec _ _, next_exec _ _⟩

theorem witness_StatusTellsTheOutcome :
    StateInv (counted 0) ∧ StateInv okStrict ∧ StateInv okLenient ∧ StateInv failCountState ∧ StateInv failSum ∧
    (counted 0).phase = .accum ∧ exec .finS (counted 0) = .next (executed .finS (counted 0)) ∧
    (executed .finS (counted 0)).rsp = some ⟨false, 0x0006⟩ ∧
    exec .finL (twelve 3) = .next (executed .finL (twelve 3)) ∧
    (executed .finL (twelve 3)).rsp = some ⟨false, 0x0C11⟩ :=
  ⟨inv_counted.1, inv_ok.1, inv_ok.2, inv_fail.2, inv_fail.1, by decide, exec_eq _ _, by decide, exec_eq _ _,
   by decide +kernel⟩

theorem witness_CollectingReadsTheBuffer : StateInv okStrict ∧ okStrict.phase = .ok ∧ ∃ s : State,
    StateInv s ∧ s.phase = .ok ∧
    s.inputs = hostInputs (.rdl :: (List.range s.olen.toNat).map fun n => .rdb (BitVec.ofNat 6 n)) ++ [] :=
  ⟨inv_ok.1, by decide, { okStrict with
      inputs := hostInputs (.rdl :: (List.range okStrict.olen.toNat).map fun n => .rdb (BitVec.ofNat 6 n)) ++ [] },
    ⟨inv_ok.1.length, inv_ok.1.codes, inv_ok.1.accum, inv_ok.1.ok, inv_ok.1.fail, inv_ok.1.width⟩, rfl, rfl⟩

/-- One word for each protocol error. -/
theorem witness_RefusalCodes :
    (∃ t, step (given 0x7000 okStrict) = .next t) ∧ (stepped (given 0x7000 okStrict)).rsp = some ⟨true, 1⟩ ∧
    (stepped (given 0x2000 okStrict)).rsp = some ⟨true, 2⟩ ∧ (stepped (given 0x4000 (counted 0))).rsp = some ⟨true, 3⟩ ∧
    (stepped (given 0x4010 okStrict)).rsp = some ⟨true, 4⟩ := ⟨next_step _, by decide⟩

theorem witness_RefusalChangesOnlyPerr :
    (∃ t, step { okStrict with inputs := [.command 0x2000, .command 0x0000] } = .next t) ∧
    (stepped { okStrict with inputs := [.command 0x2000, .command 0x0000] }).rsp = some ⟨true, 2⟩ ∧
    (∃ a, step (stepped { okStrict with inputs := [.command 0x2000, .command 0x0000] }) = .next a) ∧
    (∃ b, step (given 0x0000 okStrict) = .next b) ∧ decode 0x0000 = .command .stat ∧
    (stepped (given 0x0000 okStrict)).rsp = some ⟨false, 0x0C01⟩ ∧ decode 0x5000 = .command .rdl ∧
    (stepped (given 0x7000 okStrict)).rsp = some ⟨true, 1⟩ :=
  ⟨next_step _, by decide, next_step _, next_step _, by decide⟩

theorem witness_OneEventPerCommand :
    decode 0x4040 = .illegal .addressBits ∧ decode 0x3000 = .command .finS ∧ okStrict.phase ≠ .accum ∧
    decode 0x403F = .command (.rdb 63) ∧ failSum.phase ≠ .ok ∧ okStrict.phase = .ok ∧
    okStrict.olen.toNat ≤ (63 : OutAddr).toNat ∧ wordRefusal 0x0000 okStrict = none ∧
    wordRefusal 0x400F okStrict = none ∧ (counted 0).phase = .accum ∧
    (counted 0).wcnt.toNat ∉ [12, 15, 18, 21, 24] := by decide

theorem witness_PerrIsSticky :
    (∃ t, step (given 0x7000 okStrict) = .next t) ∧
    (stepped (given 0x7000 okStrict)).rsp = some ⟨true, 1⟩ ∧
    (stepped { okStrict with perr := true, inputs := [.command 0x0000] }).perr = true ∧
    ∃ t, step { okStrict with perr := true, inputs := [.reset] } = .next t :=
  ⟨next_step _, by decide, by decide, next_step _⟩

theorem witness_ClassifiedOutcomes :
    (∃ t, step (given 0x3000 (twelve 2)) = .next t) ∧ (given 0x3000 (twelve 2)).phase = .accum ∧
    (stepped (given 0x3000 (twelve 2))).phase = .fail ∧ (stepped (given 0x3001 (counted 0))).phase = .fail ∧
    (stepped (given 0x3000 (counted 25))).phase = .fail :=
  ⟨next_step _, by decide, by decide +kernel⟩

theorem witness_StepKeepsInvariant : StateInv (given 0x3000 (twelve 3)) ∧
    ∃ t, step (given 0x3000 (twelve 3)) = .next t := ⟨inv_given _ inv_twelve.1, next_step _⟩

/-- Latched values in a state that has hashed, and one that has not. -/
theorem witness_StepKeepsLatchedValues : Latched (given 0x4000 okStrict) ∧
    (∃ t, step (given 0x4000 okStrict) = .next t) ∧ Latched (given 0x3001 (counted 0)) :=
  ⟨⟨fun _ => by decide +kernel, fun _ => by decide +kernel,
      fun h => absurd ⟨by decide, by decide, by decide⟩ h, fun _ _ => by decide, fun _ h => absurd h (by decide),
      fun h => absurd (by decide) h⟩,
   next_step _,
   ⟨fun h => absurd (by decide) h.1, fun h => absurd (by decide) h.1, fun _ => by decide,
      fun h => absurd h (by decide), fun h => absurd h (by decide), fun _ => by decide⟩⟩

theorem witness_ReadableBytesAreBacked : StateInv okLenient ∧ 0 < okLenient.olen.toNat ∧ 16 < okLenient.olen.toNat :=
  ⟨inv_ok.2, by decide, by decide⟩

end Sys2Proof.Tests
end

section
/-! PROOFS. `pack8` and the byte view of the store, bit by bit (00_scope.md R11, 20_memory.md R53). -/

open Sys2Proof Sys2Proof.Machine

namespace Sys2Proof.Proofs

/-- Bit (7-j) of a byte of the view is element 8n+j of the store (20_memory.md R53), at every address. -/
theorem getLsbD_outRead (m : Memory) (n j : Nat) (hj : j < 8) :
    (m.outRead n).getLsbD (7 - j) = m.getD (8 * n + j) false := by
  rw [Memory.outRead_eq, getLsbD_packByte _ _ _ hj]

/-- The zero padding of R11: an element beyond the end of a sequence counts as 0. -/
theorem getD_eq_ite_padding (s : BitSeq) (i : Nat) :
    s.getD i false = if i < s.length then s.getD i false else false := by
  split
  next => rfl
  next h => exact List.getD_eq_default _ _ (Nat.not_lt.1 h)

/-- Settles O20: the length and the bytes are those of `pack8`, and each bit is that of `OutRead` with the
zero padding of R11 written out. -/
theorem outReadPacksMsbFirst : Obligations.OutReadPacksMsbFirst := by
  intro m
  refine ⟨length_pack8 m, fun n hn => ⟨getElem?_pack8 m n hn, fun j hj => ?_⟩⟩
  rw [getLsbD_outRead m n j hj]
  exact getD_eq_ite_padding m (8 * n + j)

end Sys2Proof.Proofs
end

section
/-! PROOFS. The state after reset, and when a command sets, keeps or clears PERR (10_state.md R30, R37). -/

open Sys2Proof Sys2Proof.Machine

namespace Sys2Proof.Proofs

/-- Settles O12: the nine components are those of the reset state, and each derived word of that state
computes to zero. -/
theorem resetValues : Obligations.ResetValues := by
  refine ⟨rfl, rfl, rfl, rfl, rfl, rfl, rfl, rfl, rfl, ?status, ?len, ?csum⟩
  case status => decide
  case len => decide
  case csum => decide

/-! ## The word of `CLR` -/

/-- A word is its opcode above its bits 11:0 (30_encoding.md R70, R71). -/
theorem opField_append_lowField (w : CommandWord) : (opField w ++ lowField w : BitVec (4 + 12)) = w :=
  BitVec.extractLsb'_append_extractLsb'_eq_extractLsb' rfl |>.trans (extract_all w)

/-- The shape of every format: a command when the format's zero bits are zero (30_encoding.md R74). -/
theorem guarded_eq_command_iff (p : Prop) [Decidable p] (i j : Instr) (why : Illegal) :
    (if p then Decoded.command i else .illegal why) = .command j ↔ p ∧ i = j := by
  by_cases h : p <;> simp [h]

theorem decodeZ_eq_command_iff (i j : Instr) (w : CommandWord) :
    decodeZ i w = .command j ↔ lowField w = 0 ∧ i = j :=
  guarded_eq_command_iff _ _ _ _

theorem decodeI_eq_command_iff (j : Instr) (w : CommandWord) :
    decodeI w = .command j ↔ bit11 w = 0 ∧ .push (idxField w) = j :=
  guarded_eq_command_iff _ _ _ _

theorem decodeF_eq_command_iff (j : Instr) (w : CommandWord) :
    decodeF w = .command j ↔ finZeroField w = 0 ∧ (if modeField w = 0 then .finS else .finL) = j :=
  guarded_eq_command_iff _ _ _ _

theorem decodeA_eq_command_iff (j : Instr) (w : CommandWord) :
    decodeA w = .command j ↔ addrZeroField w = 0 ∧ .rdb (addrField w) = j :=
  guarded_eq_command_iff _ _ _ _

/-- `decode` answers `CLR` in the branch of opcode 1 alone, and there only with bits 11:0 zero. -/
theorem fields_of_decode_eq_clr {w : CommandWord} (h : decode w = .command .clr) :
    opField w = 0x1 ∧ lowField w = 0 := by
  have hmode : (if modeField w = 0 then Instr.finS else .finL) ≠ .clr := by split <;> simp
  unfold decode at h
  split_ifs at h with h0 h1 <;>
    simp only [decodeZ_eq_command_iff, decodeI_eq_command_iff, decodeF_eq_command_iff, decodeA_eq_command_iff,
      hmode, reduceCtorEq, and_false, and_true] at h
  exact ⟨h1, h⟩

/-- Only the word 0x1000 decodes to `CLR` (30_encoding.md R72). -/
theorem decode_eq_clr_iff (w : CommandWord) : decode w = .command .clr ↔ w = 0x1000 := by
  constructor
  · intro h
    obtain ⟨hop, hlow⟩ := fields_of_decode_eq_clr h
    rw [← opField_append_lowField w, hop, hlow]
    rfl
  · rintro rfl
    decide

/-! ## A command word is refused or accepted -/

/-- A refused word only raises its error (60_exceptions.md R172). -/
theorem issued_refused {w : CommandWord} {s : State} {e : ProtocolError} (h : wordRefusal w s = some e) :
    issued w s = raise e s := by
  cases hd : decode w with
  | command i =>
    rw [issued_command hd]
    exact executed_refused (by simpa only [wordRefusal, hd] using h)
  | illegal why =>
    rw [issued_illegal hd]
    simp only [wordRefusal, hd, Option.some.injEq] at h
    rw [h]

/-- A word that is not refused is a command and leaves what that command leaves when accepted. -/
theorem issued_accepted {w : CommandWord} {s : State} (h : wordRefusal w s = none) :
    ∃ i, decode w = .command i ∧ issued w s = accepted i s := by
  cases hd : decode w with
  | command i =>
    refine ⟨i, rfl, ?_⟩
    rw [issued_command hd]
    exact executed_accepted (by simpa only [wordRefusal, hd] using h)
  | illegal why => simp [wordRefusal, hd] at h

/-! ## PERR -/

@[simp] theorem finalisedStrict_perr (s : State) : (finalisedStrict s).perr = s.perr := by
  obtain ⟨-, h⟩ | ⟨-, -, h⟩ | ⟨-, -, h⟩ := finalisedStrict_cases s <;> simp [h]

@[simp] theorem finalisedLenient_perr (s : State) : (finalisedLenient s).perr = s.perr := by
  obtain ⟨-, h⟩ | ⟨-, h⟩ := finalisedLenient_cases s <;> simp [h]

/-- An accepted command keeps PERR, but for `CLR`, which clears it (10_state.md R30). -/
theorem accepted_perr (i : Instr) (s : State) :
    (accepted i s).perr = true ↔ s.perr = true ∧ i ≠ .clr := by
  cases i <;> simp [accepted]

/-- PERR after a command word: set by a refusal, or set before and the word is not `CLR` (10_state.md R30). -/
theorem issued_perr (w : CommandWord) (s : State) :
    (issued w s).perr = true ↔
      (∃ d, (issued w s).rsp = some ⟨true, d⟩) ∨ (s.perr = true ∧ w ≠ 0x1000) := by
  cases h : wordRefusal w s with
  | some e => simp [issued_refused h]
  | none =>
    obtain ⟨i, hd, hi⟩ := issued_accepted h
    obtain ⟨d, hr⟩ := accepted_rsp i s
    have hclr : i = .clr ↔ w = 0x1000 := by rw [← decode_eq_clr_iff, hd, Decoded.command.injEq]
    simp [hi, hr, accepted_perr, hclr]

/-- The Decoding Outcome does not read PERR (43_readout.md R152). -/
theorem outcome_setPerr (s : State) (b : Bool) : outcome { s with perr := b } = outcome s := rfl

/-- What a step answers is what it leaves. -/
theorem stepped_of_step {s t : State} (h : step s = .next t) : stepped s = t :=
  Host.Outcome.next.inj ((step_eq s).symm.trans h)

/-- Settles O55: a step with a command pending leaves what the word leaves, where `issued_perr` says when
PERR is set; reset puts PERR at its reset value, and the outcome does not read it. -/
theorem perrIsSticky : Obligations.PerrIsSticky := by
  refine ⟨fun s t w rest hin hstep => ?command, fun s t rest hin hstep => ?reset, rfl, outcome_setPerr⟩
  case command =>
    rw [← stepped_of_step hstep, stepped_command hin]
    exact issued_perr w { s with inputs := rest }
  case reset =>
    rw [← stepped_of_step hstep, stepped_reset hin]
    rfl

end Sys2Proof.Proofs
end

section
/-! PROOFS. Commands in issue order: what a command word does is independent of the two ports, and runs
compose (20_memory.md R58). -/

open Sys2Proof Sys2Proof.Machine

namespace Sys2Proof.Proofs

/-! ## A command word does not see the ports -/

/-- A state with its two ports replaced: what the host has still to give, and the standing response. -/
def setPorts (q : List HostInput) (r : Option Response) (s : State) : State := { s with inputs := q, rsp := r }

/-- Two states that agree in the nine components differ in their ports only (10_state.md R20). -/
theorem sameComponents_iff_eq_setPorts (s t : State) :
    SameComponents s t ↔ t = setPorts t.inputs t.rsp s := by
  cases s
  cases t
  simp [SameComponents, setPorts, eq_comm]

@[simp] theorem storeIndex_setPorts (q : List HostInput) (r : Option Response) (idx : WordIndex) (s : State) :
    storeIndex idx (setPorts q r s) = setPorts q r (storeIndex idx s) := by
  rw [storeIndex, storeIndex, apply_ite (setPorts q r)]
  rfl

@[simp] theorem pushed_setPorts (q : List HostInput) (r : Option Response) (idx : WordIndex) (s : State) :
    pushed idx (setPorts q r s) = setPorts q r (pushed idx s) := by
  rw [pushed, storeIndex_setPorts]
  rfl

@[simp] theorem compareChecksums_setPorts (q : List HostInput) (r : Option Response) (n : Nat) (s : State) :
    compareChecksums n (setPorts q r s) = setPorts q r (compareChecksums n s) := by
  rw [compareChecksums, compareChecksums, apply_ite (setPorts q r)]
  rfl

@[simp] theorem finalisedStrict_setPorts (q : List HostInput) (r : Option Response) (s : State) :
    finalisedStrict (setPorts q r s) = setPorts q r (finalisedStrict s) := by
  rw [finalisedStrict, finalisedStrict, apply_ite (setPorts q r), ← compareChecksums_setPorts]
  rfl

@[simp] theorem finalisedLenient_setPorts (q : List HostInput) (r : Option Response) (s : State) :
    finalisedLenient (setPorts q r s) = setPorts q r (finalisedLenient s) := by
  rw [finalisedLenient, finalisedLenient, apply_ite (setPorts q r)]
  rfl

/-- An accepted command keeps the queue and overwrites the standing response, whatever both were. -/
theorem accepted_setPorts (q : List HostInput) (r : Option Response) (i : Instr) (s : State) :
    accepted i (setPorts q r s) = { accepted i s with inputs := q } := by
  cases i with
  | stat => rfl
  | clr => rfl
  | rdl => rfl
  | rdc => rfl
  | rdb n => rfl
  | push idx => rw [accepted, pushed_setPorts]; rfl
  | finS => rw [accepted, finalisedStrict_setPorts]; rfl
  | finL => rw [accepted, finalisedLenient_setPorts]; rfl

/-- Whether a command is refused does not depend on the ports (60_exceptions.md R171). -/
theorem refusal_setPorts (q : List HostInput) (r : Option Response) (i : Instr) (s : State) :
    refusal i (setPorts q r s) = refusal i s := by
  cases i <;> rfl

theorem executed_setPorts (q : List HostInput) (r : Option Response) (i : Instr) (s : State) :
    executed i (setPorts q r s) = { executed i s with inputs := q } := by
  have hports := refusal_setPorts q r i s
  cases h : refusal i s with
  | some e =>
    rw [executed_refused h, executed_refused (hports.trans h)]
    rfl
  | none => rw [executed_accepted h, executed_accepted (hports.trans h), accepted_setPorts]

/-- A command word keeps the queue and overwrites the standing response; what it leaves otherwise is a function
of the nine components and the word (20_memory.md R58). -/
theorem issued_setPorts (q : List HostInput) (r : Option Response) (w : CommandWord) (s : State) :
    issued w (setPorts q r s) = { issued w s with inputs := q } := by
  cases hd : decode w with
  | command i => rw [issued_command hd, issued_command hd, executed_setPorts]
  | illegal why =>
    rw [issued_illegal hd, issued_illegal hd]
    rfl

@[simp] theorem issued_inputs (w : CommandWord) (s : State) : (issued w s).inputs = s.inputs := by
  have h : issued w s = { issued w s with inputs := s.inputs } := issued_setPorts s.inputs s.rsp w s
  rw [h]

/-- A step that takes a word leaves what the word leaves, and the later inputs. -/
theorem stepped_command_eq {s : State} {w : CommandWord} {rest : List HostInput}
    (h : s.inputs = .command w :: rest) : stepped s = { issued w s with inputs := rest } :=
  (stepped_command h).trans (issued_setPorts rest s.rsp w s)

/-- The same word, in states with equal components, leaves equal components and gives the same response. -/
theorem issued_sameComponents {s s' : State} (h : SameComponents s s') (w : CommandWord) :
    SameComponents (issued w s) (issued w s') ∧ (issued w s).rsp = (issued w s').rsp := by
  have heq : issued w s' = { issued w s with inputs := s'.inputs } := by
    rw [← issued_setPorts s'.inputs s'.rsp, ← (sameComponents_iff_eq_setPorts s s').1 h]
  rw [heq]
  exact ⟨⟨rfl, rfl, rfl, rfl, rfl, rfl, rfl, rfl, rfl⟩, rfl⟩

/-! ## Runs compose -/

/-- `j + k` steps are `j` steps and then `k` steps, for the state and for the responses. -/
theorem run_add_responses_add (j k : Nat) {s t : State} (h : run j s = .next t) :
    run (j + k) s = run k t ∧ responses (j + k) s = responses j s ++ responses k t := by
  induction j generalizing s with
  | zero =>
    obtain rfl : s = t := Host.Outcome.next.inj h
    simp [responses]
  | succ j ih =>
    rw [run_succ] at h
    obtain ⟨hrun, hresp⟩ := ih h
    rw [Nat.succ_add, run_succ, responses_succ, responses_succ, hresp, List.append_assoc]
    exact ⟨hrun, rfl⟩

/-- Settles O9: a step that takes a word leaves what the word leaves and the later inputs, where
`issued_sameComponents` says that the word does not see the ports; runs compose by induction on the first. -/
theorem commandsTakeEffectInIssueOrder : Obligations.CommandsTakeEffectInIssueOrder := by
  refine ⟨fun s w rest hin => ?taken, fun j k s t h => run_add_responses_add j k h,
    fun s s' t t' w rest rest' hsame hin hin' hstep hstep' => ?components⟩
  case taken =>
    refine ⟨stepped s, step_eq s, ?_⟩
    rw [stepped_command_eq hin]
  case components =>
    rw [← stepped_of_step hstep, ← stepped_of_step hstep', stepped_command_eq hin, stepped_command_eq hin']
    exact issued_sameComponents hsame w

end Sys2Proof.Proofs
end

section
/-! PROOFS. Words and commands: a word is a command exactly when it is that command's encoding, and the rows of
the command map (30_encoding.md R71 to R73, R75). -/

open Sys2Proof Sys2Proof.Machine

namespace Sys2Proof.Proofs

/-! ## A word and the three fields of its format (30_encoding.md R71) -/

/-- A word of three fields is put together from its slices. -/
theorem slices_append {a b c : Nat} (w : BitVec (a + b + c)) :
    w.extractLsb' (c + b) a ++ w.extractLsb' c b ++ w.extractLsb' 0 c = w := by
  rw [BitVec.extractLsb'_append_extractLsb'_eq_extractLsb' rfl,
    BitVec.extractLsb'_append_extractLsb'_eq_extractLsb' (Nat.zero_add c).symm, extract_all]

/-- The slices of a word put together from three fields are those fields. -/
theorem slices_of_append {a b c : Nat} (x : BitVec a) (y : BitVec b) (z : BitVec c) :
    (x ++ y ++ z).extractLsb' (c + b) a = x ∧ (x ++ y ++ z).extractLsb' c b = y ∧
      (x ++ y ++ z).extractLsb' 0 c = z := by
  refine ⟨(extract_high _ z b a).trans ?_, (extract_high _ z 0 b).trans (extract_low x y), extract_low _ z⟩
  exact (extract_high x y 0 a).trans (extract_all x)

theorem fieldsI_append (w : CommandWord) : (opField w ++ bit11 w ++ idxField w : BitVec (4 + 1 + 11)) = w :=
  slices_append (a := 4) (b := 1) (c := 11) w

theorem fieldsF_append (w : CommandWord) :
    (opField w ++ finZeroField w ++ modeField w : BitVec (4 + 11 + 1)) = w :=
  slices_append (a := 4) (b := 11) (c := 1) w

theorem fieldsA_append (w : CommandWord) :
    (opField w ++ addrZeroField w ++ addrField w : BitVec (4 + 6 + 6)) = w :=
  slices_append (a := 4) (b := 6) (c := 6) w

/-! ## The encoder writes the fields of the format -/

theorem encode_push_eq_append (idx : WordIndex) :
    encode (.push idx) = (0x2#4 ++ 0#1 ++ idx : BitVec (4 + 1 + 11)) := by
  rw [← BitVec.append_zero_add_zero_append, encode, BitVec.setWidth_eq_append (by decide)]
  rfl

theorem encode_rdb_eq_append (n : OutAddr) :
    encode (.rdb n) = (0x4#4 ++ 0#6 ++ n : BitVec (4 + 6 + 6)) := by
  rw [← BitVec.append_zero_add_zero_append, encode, BitVec.setWidth_eq_append (by decide)]
  rfl

theorem encode_fin_eq_append (m : BitVec 1) :
    encode (if m = 0 then .finS else .finL) = (0x3#4 ++ 0#11 ++ m : BitVec (4 + 11 + 1)) := by
  revert m
  decide

/-! ## Decoding inverts encoding (30_encoding.md R75) -/

theorem decode_encode_push (idx : WordIndex) : decode (encode (.push idx)) = .command (.push idx) := by
  obtain ⟨hop, hzero, hidx⟩ := slices_of_append 0x2#4 0#1 idx
  rw [← encode_push_eq_append] at hop hzero hidx
  simp [decode, decodeI, opField, bit11, idxField, hop, hzero, hidx]

theorem decode_encode_rdb (n : OutAddr) : decode (encode (.rdb n)) = .command (.rdb n) := by
  obtain ⟨hop, hzero, haddr⟩ := slices_of_append 0x4#4 0#6 n
  rw [← encode_rdb_eq_append] at hop hzero haddr
  simp [decode, decodeA, opField, addrZeroField, addrField, hop, hzero, haddr]

theorem decode_encode (i : Instr) : decode (encode i) = .command i := by
  cases i with
  | push idx => exact decode_encode_push idx
  | rdb n => exact decode_encode_rdb n
  | stat => decide
  | clr => decide
  | finS => decide
  | finL => decide
  | rdl => decide
  | rdc => decide

theorem encode_injective : Function.Injective encode := fun i j h => by
  simpa [decode_encode] using congrArg decode h

theorem eq_append_of_formatZ {w : CommandWord} {op : BitVec 4} (hop : opField w = op) (hzero : lowField w = 0) :
    w = (op ++ 0#12 : BitVec (4 + 12)) := by
  rw [← opField_append_lowField w, hop, hzero]
  rfl

theorem eq_encode_push {w : CommandWord} (hop : opField w = 0x2) (hzero : bit11 w = 0) :
    w = encode (.push (idxField w)) := by
  rw [encode_push_eq_append]
  nth_rw 1 [← fieldsI_append w, hop, hzero]
  rfl

theorem eq_encode_fin {w : CommandWord} (hop : opField w = 0x3) (hzero : finZeroField w = 0) :
    w = encode (if modeField w = 0 then .finS else .finL) := by
  rw [encode_fin_eq_append]
  nth_rw 1 [← fieldsF_append w, hop, hzero]
  rfl

theorem eq_encode_rdb {w : CommandWord} (hop : opField w = 0x4) (hzero : addrZeroField w = 0) :
    w = encode (.rdb (addrField w)) := by
  rw [encode_rdb_eq_append]
  nth_rw 1 [← fieldsA_append w, hop, hzero]
  rfl

/-- In each branch of `decode` the opcode and the zero bits of the format leave the operand alone, so the word
is the encoding of the command it decodes to. -/
theorem eq_encode_of_decode {w : CommandWord} {i : Instr} (h : decode w = .command i) : w = encode i := by
  unfold decode at h
  split_ifs at h with h0 h1 h2 h3 h4 h5 h6
  · obtain ⟨hzero, rfl⟩ := (decodeZ_eq_command_iff _ _ _).1 h
    exact eq_append_of_formatZ h0 hzero
  · obtain ⟨hzero, rfl⟩ := (decodeZ_eq_command_iff _ _ _).1 h
    exact eq_append_of_formatZ h1 hzero
  · obtain ⟨hzero, rfl⟩ := (decodeI_eq_command_iff _ _).1 h
    exact eq_encode_push h2 hzero
  · obtain ⟨hzero, rfl⟩ := (decodeF_eq_command_iff _ _).1 h
    exact eq_encode_fin h3 hzero
  · obtain ⟨hzero, rfl⟩ := (decodeA_eq_command_iff _ _).1 h
    exact eq_encode_rdb h4 hzero
  · obtain ⟨hzero, rfl⟩ := (decodeZ_eq_command_iff _ _ _).1 h
    exact eq_append_of_formatZ h5 hzero
  · obtain ⟨hzero, rfl⟩ := (decodeZ_eq_command_iff _ _ _).1 h
    exact eq_append_of_formatZ h6 hzero

/-- A word is a command exactly when it is that command's encoding (30_encoding.md R75). -/
theorem decode_eq_command_iff (w : CommandWord) (i : Instr) : decode w = .command i ↔ w = encode i :=
  ⟨eq_encode_of_decode, fun h => h ▸ decode_encode i⟩

/-! ## The rows of the command map (30_encoding.md R72) -/

theorem selects_iff (r : TableRow) (w : CommandWord) : r.selects w = true ↔ w &&& r.mask = r.pattern := by
  simp [TableRow.selects]

/-- A field that the mask of a row keeps has the value it has in the row's pattern. -/
theorem slice_of_masked {w m p : CommandWord} (h : w &&& m = p) (k l : Nat)
    (hm : m.extractLsb' k l = BitVec.allOnes l) : w.extractLsb' k l = p.extractLsb' k l := by
  rw [← h, BitVec.extractLsb'_and, hm, BitVec.and_allOnes]

/-- A word that the row of `PUSH` selects is a push of its index. -/
theorem eq_encode_push_of_masked {w : CommandWord} (h : w &&& 0xF800 = 0x2000) : w = encode (.push (idxField w)) :=
  eq_encode_push ((slice_of_masked h 12 4 (by decide)).trans (by decide))
    ((slice_of_masked h 11 1 (by decide)).trans (by decide))

/-- A word that the row of `RDB` selects is a read at its address. -/
theorem eq_encode_rdb_of_masked {w : CommandWord} (h : w &&& 0xFFC0 = 0x4000) : w = encode (.rdb (addrField w)) :=
  eq_encode_rdb ((slice_of_masked h 12 4 (by decide)).trans (by decide))
    ((slice_of_masked h 6 6 (by decide)).trans (by decide))

/-- A row that keeps every bit selects its pattern alone. -/
theorem eq_of_masked_allOnes {w p : CommandWord} (h : w &&& 0xFFFF = p) : w = p :=
  (BitVec.and_allOnes (x := w)).symm.trans h

/-- A row selects encodings of commands of its mnemonic only. -/
theorem exists_encode_of_selects {r : TableRow} (hr : r ∈ commandMap) {w : CommandWord} (h : r.selects w = true) :
    ∃ i : Instr, w = encode i ∧ i.source.mnemonic = r.mnemonic := by
  rw [selects_iff] at h
  simp only [commandMap, List.mem_cons, List.not_mem_nil, or_false] at hr
  obtain rfl | rfl | rfl | rfl | rfl | rfl | rfl | rfl := hr
  · exact ⟨.stat, eq_of_masked_allOnes h, rfl⟩
  · exact ⟨.clr, eq_of_masked_allOnes h, rfl⟩
  · exact ⟨.push (idxField w), eq_encode_push_of_masked h, rfl⟩
  · exact ⟨.finS, eq_of_masked_allOnes h, rfl⟩
  · exact ⟨.finL, eq_of_masked_allOnes h, rfl⟩
  · exact ⟨.rdb (addrField w), eq_encode_rdb_of_masked h, rfl⟩
  · exact ⟨.rdl, eq_of_masked_allOnes h, rfl⟩
  · exact ⟨.rdc, eq_of_masked_allOnes h, rfl⟩

/-- Every command's word is selected by a row with its mnemonic: the per-command facts of Laws/PerInstr. -/
theorem exists_row_selects_encode (i : Instr) :
    ∃ r ∈ commandMap, r.mnemonic = i.source.mnemonic ∧ r.selects (encode i) = true := by
  cases i with
  | stat => exact Laws.RowSelects.stat
  | clr => exact Laws.RowSelects.clr
  | push idx => exact Laws.RowSelects.push idx
  | finS => exact Laws.RowSelects.finS
  | finL => exact Laws.RowSelects.finL
  | rdb n => exact Laws.RowSelects.rdb n
  | rdl => exact Laws.RowSelects.rdl
  | rdc => exact Laws.RowSelects.rdc

/-- A mnemonic has one row. -/
theorem row_eq_of_mnemonic_eq : ∀ r ∈ commandMap, ∀ r' ∈ commandMap, r.mnemonic = r'.mnemonic → r = r' := by
  decide

/-- A row selects exactly the words that decode to a command of its mnemonic (30_encoding.md R72). -/
theorem selects_iff_decode {r : TableRow} (hr : r ∈ commandMap) (w : CommandWord) :
    r.selects w = true ↔ ∃ i : Instr, decode w = .command i ∧ i.source.mnemonic = r.mnemonic := by
  simp only [decode_eq_command_iff]
  constructor
  · exact exists_encode_of_selects hr
  · rintro ⟨i, rfl, hi⟩
    obtain ⟨r', hr', hmn, hsel⟩ := exists_row_selects_encode i
    rwa [row_eq_of_mnemonic_eq r hr r' hr' (hi.symm.trans hmn.symm)]

/-- No word is selected by two rows, because it decodes to one command. -/
theorem row_eq_of_selects {r r' : TableRow} (hr : r ∈ commandMap) (hr' : r' ∈ commandMap) {w : CommandWord}
    (h : r.selects w = true) (h' : r'.selects w = true) : r = r' := by
  obtain ⟨i, hi, hmn⟩ := (selects_iff_decode hr w).1 h
  obtain ⟨i', hi', hmn'⟩ := (selects_iff_decode hr' w).1 h'
  obtain rfl : i = i' := Decoded.command.inj (hi.symm.trans hi')
  exact row_eq_of_mnemonic_eq r hr r' hr' (hmn.symm.trans hmn')

/-! ## The 2118 commands -/

/-- Every value of a field. -/
def fieldValues (n : Nat) : List (BitVec n) := (List.finRange (2 ^ n)).map BitVec.ofFin

theorem mem_fieldValues {n : Nat} (v : BitVec n) : v ∈ fieldValues n :=
  List.mem_map.2 ⟨v.toFin, List.mem_finRange _, rfl⟩

theorem nodup_fieldValues (n : Nat) : (fieldValues n).Nodup :=
  (List.nodup_finRange _).map fun _ _ h => congrArg BitVec.toFin h

theorem length_fieldValues (n : Nat) : (fieldValues n).length = 2 ^ n := by simp [fieldValues]

/-- Every command of the command set (30_encoding.md R72). -/
def allCommands : List Instr :=
  [.stat, .clr, .finS, .finL, .rdl, .rdc] ++ ((fieldValues 11).map .push ++ (fieldValues 6).map .rdb)

theorem mem_allCommands (i : Instr) : i ∈ allCommands := by
  cases i <;> simp [allCommands, mem_fieldValues]

theorem nodup_allCommands : allCommands.Nodup := by
  have hpush : ((fieldValues 11).map Instr.push).Nodup := (nodup_fieldValues 11).map fun _ _ => Instr.push.inj
  have hrdb : ((fieldValues 6).map Instr.rdb).Nodup := (nodup_fieldValues 6).map fun _ _ => Instr.rdb.inj
  refine List.Nodup.append (by decide) (List.Nodup.append hpush hrdb ?_) ?_
  · simp [List.disjoint_left]
  · simp [List.disjoint_left]

theorem length_allCommands : allCommands.length = 2118 := by simp [allCommands, length_fieldValues]

/-- Settles O2: a row selects the words that decode to its command, so that no word has two rows; and the words
that are commands are the encodings of the 2118 commands, which are distinct. -/
theorem commandMapIsExact : Obligations.CommandMapIsExact := by
  refine ⟨fun r hr w => selects_iff_decode hr w, fun r hr r' hr' w h h' => row_eq_of_selects hr hr' h h',
    allCommands.map encode, nodup_allCommands.map encode_injective, ?length, fun w => ?mem⟩
  case length => rw [List.length_map, length_allCommands]
  case mem => simp [decode_eq_command_iff, mem_allCommands, eq_comm]

end Sys2Proof.Proofs
end

section
/-! PROOFS. The words that are no command, and their refusal (30_encoding.md R74). -/

open Sys2Proof Sys2Proof.Machine

namespace Sys2Proof.Proofs

/-- A word matches no row exactly when the decoder calls it illegal. -/
theorem no_row_selects_iff (w : CommandWord) :
    (∀ r ∈ commandMap, r.selects w = false) ↔ ∃ why, decode w = .illegal why := by
  cases hd : decode w with
  | command i =>
    obtain ⟨r, hr, -, hsel⟩ := exists_row_selects_encode i
    rw [← (decode_eq_command_iff w i).1 hd] at hsel
    simp only [reduceCtorEq, exists_false, iff_false]
    exact fun hnone => Bool.noConfusion ((hnone r hr).symm.trans hsel)
  | illegal why =>
    refine iff_of_true (fun r hr => Bool.eq_false_iff.2 fun hsel => ?_) ⟨why, rfl⟩
    obtain ⟨i, hi, -⟩ := (selects_iff_decode hr w).1 hsel
    exact Decoded.noConfusion (hd.symm.trans hi)

/-- The shape of every format: illegal when the format's zero bits are not zero (30_encoding.md R74). -/
theorem exists_guarded_eq_illegal_iff (p : Prop) [Decidable p] (i : Instr) (why : Illegal) :
    (∃ e, (if p then Decoded.command i else .illegal why) = .illegal e) ↔ ¬ p := by
  by_cases h : p <;> simp [h]

theorem bit11_ne_zero_iff (w : CommandWord) : bit11 w ≠ 0 ↔ w.getLsbD 11 = true := by
  have hbit : bit11 w = BitVec.ofBool (w.getLsbD 11) := BitVec.eq_of_getLsbD_eq fun i hi => by
    simp [bit11, Nat.lt_one_iff.1 hi]
  rw [hbit]
  cases w.getLsbD 11 <;> decide

/-- An opcode without a row is 7 or more. -/
theorem seven_le_of_op_ne {op : BitVec 4} (h0 : op ≠ 0x0) (h1 : op ≠ 0x1) (h2 : op ≠ 0x2) (h3 : op ≠ 0x3)
    (h4 : op ≠ 0x4) (h5 : op ≠ 0x5) (h6 : op ≠ 0x6) : 7 ≤ op.toNat := by
  bv_omega

/-- The clauses of 30_encoding.md R74, branch by branch of the decoder. -/
theorem exists_decode_eq_illegal_iff (w : CommandWord) :
    (∃ why, decode w = .illegal why) ↔
      7 ≤ (opField w).toNat ∨
      ((opField w = 0x0 ∨ opField w = 0x1 ∨ opField w = 0x5 ∨ opField w = 0x6) ∧ lowField w ≠ 0) ∨
      (opField w = 0x2 ∧ w.getLsbD 11 = true) ∨
      (opField w = 0x3 ∧ finZeroField w ≠ 0) ∨
      (opField w = 0x4 ∧ addrZeroField w ≠ 0) := by
  unfold decode
  split_ifs with h0 h1 h2 h3 h4 h5 h6
  · simp [decodeZ, exists_guarded_eq_illegal_iff, h0]
  · simp [decodeZ, exists_guarded_eq_illegal_iff, h1]
  · rw [decodeI, exists_guarded_eq_illegal_iff, ← ne_eq, bit11_ne_zero_iff]
    simp [h2]
  · simp [decodeF, exists_guarded_eq_illegal_iff, h3]
  · simp [decodeA, exists_guarded_eq_illegal_iff, h4]
  · simp [decodeZ, exists_guarded_eq_illegal_iff, h5]
  · simp [decodeZ, exists_guarded_eq_illegal_iff, h6]
  · exact iff_of_true ⟨_, rfl⟩ (.inl (seven_le_of_op_ne h0 h1 h2 h3 h4 h5 h6))

/-- Settles O3: the words outside every row are those the decoder calls illegal, branch by branch; a step on
such a word only raises `E_ILLEGAL`. -/
theorem illegalWordsAreRefused : Obligations.IllegalWordsAreRefused := by
  refine ⟨fun w => (no_row_selects_iff w).trans (exists_decode_eq_illegal_iff w), fun s w rest hin hnone => ?_⟩
  obtain ⟨why, hd⟩ := (no_row_selects_iff w).1 hnone
  rw [step_eq, stepped_command hin, issued_illegal hd]
  rfl

end Sys2Proof.Proofs
end

section
/-! PROOFS. The response of every command word (30_encoding.md R76). -/

open Sys2Proof Sys2Proof.Machine

namespace Sys2Proof.Proofs

/-- A finalise in phase ACCUM is accepted, whatever its outcome (60_exceptions.md R170). -/
theorem wordRefusal_fin_accum {w : CommandWord} {s : State} (hphase : s.phase = .accum)
    (hfin : decode w = .command .finS ∨ decode w = .command .finL) : wordRefusal w s = none := by
  obtain h | h := hfin <;> simp [wordRefusal, h, refusal, hphase]

/-- Whether a word is refused does not depend on the pending inputs (60_exceptions.md R171). -/
theorem wordRefusal_inputs (w : CommandWord) (s : State) (q : List HostInput) :
    wordRefusal w { s with inputs := q } = wordRefusal w s := rfl

/-- The DATA column of 30_encoding.md R76: the result of an accepted command, read from the state it leaves. -/
def resultData : Instr → State → DataWord
  | .stat, t   => statusWord t
  | .clr, _    => 0
  | .push _, t => zext16 t.wcnt
  | .finS, t   => statusWord t
  | .finL, t   => statusWord t
  | .rdb n, t  => zext16 (t.bs.outRead n.toNat)
  | .rdl, t    => lenWord t
  | .rdc, t    => csumWord t

/-- An accepted command answers the result that its row of the response table reads from the state it leaves. -/
theorem accepted_rsp_eq (i : Instr) (s : State) :
    (accepted i s).rsp = some ⟨false, resultData i (accepted i s)⟩ := by
  cases i <;> rfl

/-- Settles O11: a refused word raises its error, whose code is the DATA, and is no finalise in phase ACCUM; an
accepted one is a command and answers its result. -/
theorem everyCommandGetsItsResponse : Obligations.EveryCommandGetsItsResponse := by
  intro s w rest hin
  rw [step_eq, stepped_command hin]
  cases h : wordRefusal w s with
  | some e =>
    rw [issued_refused ((wordRefusal_inputs w s rest).trans h)]
    refine ⟨_, _, rfl, raise_rsp e _, nofun, fun _ => ⟨e, rfl, ?code⟩, fun hphase hfin => ?fin⟩
    case code => cases e <;> rfl
    case fin => simp [wordRefusal_fin_accum hphase hfin] at h
  | none =>
    obtain ⟨i, hd, hi⟩ := issued_accepted ((wordRefusal_inputs w s rest).trans h)
    rw [hi]
    refine ⟨_, _, rfl, accepted_rsp_eq i _, fun _ => ⟨i, hd, ?result⟩, nofun, fun _ _ => rfl⟩
    case result => cases i <;> rfl

end Sys2Proof.Proofs
end

section
/-! PROOFS. The pseudo-commands (30_encoding.md R79). -/

open Sys2Proof Sys2Proof.Machine

namespace Sys2Proof.Proofs

/-- The words of a phrase: `CLR`, the pushes in order, the finalise of its mode. -/
theorem map_encode_phraseInstrs (mode : Mode) (idxs : List WordIndex) :
    (phraseInstrs mode idxs).map encode =
      0x1000 :: (idxs.map fun idx => (0x2000 : CommandWord) + idx.setWidth 16) ++ [encode (finaliseInstr mode)] := by
  simp [phraseInstrs, encode]

/-- `STAT`, the expansion of `NOP`, changes no component (43_readout.md R151). -/
theorem sameComponents_respond (d : DataWord) (s : State) : SameComponents (respond d s) s :=
  ⟨rfl, rfl, rfl, rfl, rfl, rfl, rfl, rfl, rfl⟩

/-- Settles O6: both decode forms are the phrase of their mode, for every index list, and `NOP` answers the
status of a state it leaves. -/
theorem pseudoCommandsExpand : Obligations.PseudoCommandsExpand :=
  ⟨fun _ => rfl, fun _ => rfl, fun _ => rfl, map_encode_phraseInstrs .strict, map_encode_phraseInstrs .lenient, rfl,
    fun s => ⟨_, rfl, sameComponents_respond _ s⟩⟩

end Sys2Proof.Proofs
end

section
/-! PROOFS. `CLR`, and that no other word leaves phase OK or FAIL (40_accumulate.md R91). -/

open Sys2Proof Sys2Proof.Machine

namespace Sys2Proof.Proofs

/-- Outside phase ACCUM an accepted command other than `CLR` is a read-out, because `PUSH` and the finalise
commands are refused there; so it keeps the phase. -/
theorem accepted_phase_of_not_accum {i : Instr} {s : State} (hphase : s.phase ≠ .accum) (hi : i ≠ .clr)
    (haccepted : refusal i s = none) : (accepted i s).phase = s.phase := by
  cases i with
  | clr => exact absurd rfl hi
  | push idx => simp [refusal, hphase] at haccepted
  | finS => simp [refusal, hphase] at haccepted
  | finL => simp [refusal, hphase] at haccepted
  | stat => rfl
  | rdb n => rfl
  | rdl => rfl
  | rdc => rfl

/-- A word that is not refused is a command that is not refused. -/
theorem refusal_of_wordRefusal {w : CommandWord} {s : State} {i : Instr} (h : wordRefusal w s = none)
    (hd : decode w = .command i) : refusal i s = none := by
  simpa only [wordRefusal, hd] using h

/-- A word other than that of `CLR` is no `CLR` (30_encoding.md R72). -/
theorem ne_clr_of_decode {w : CommandWord} {i : Instr} (hd : decode w = .command i) (hw : w ≠ 0x1000) :
    i ≠ .clr := fun hi => hw ((decode_eq_clr_iff w).1 (hi ▸ hd))

/-- Every word but `CLR` keeps phase OK or FAIL. -/
theorem issued_phase_of_not_accum {w : CommandWord} {s : State} (hw : w ≠ 0x1000) (hphase : s.phase ≠ .accum) :
    (issued w s).phase = s.phase := by
  cases h : wordRefusal w s with
  | some e => rw [issued_refused h, raise_phase]
  | none =>
    obtain ⟨i, hd, hi⟩ := issued_accepted h
    rw [hi]
    exact accepted_phase_of_not_accum hphase (ne_clr_of_decode hd hw) (refusal_of_wordRefusal h hd)

/-- `CLR` empties the block and leaves its ports alone. -/
theorem sameComponents_clearAll (s : State) : SameComponents (clearAll s) State.reset :=
  ⟨rfl, rfl, rfl, rfl, rfl, rfl, rfl, rfl, rfl⟩

/-- Settles O15: `CLR` answers the emptied block, and a step on another word leaves what the word leaves, which
keeps phase OK or FAIL. -/
theorem clrRestoresTheResetState : Obligations.ClrRestoresTheResetState := by
  refine ⟨rfl, fun s => ⟨rfl, fun t hexec => ?reset, fun t w rest hin hw hphase hstep => ?phase⟩⟩
  case reset =>
    obtain rfl : respond 0 (clearAll s) = t := Host.Outcome.next.inj hexec
    exact sameComponents_clearAll s
  case phase =>
    rw [← stepped_of_step hstep, stepped_command hin]
    exact issued_phase_of_not_accum (s := { s with inputs := rest }) hw hphase

end Sys2Proof.Proofs
end

section
/-! PROOFS. `PUSH` in full: refused, stored, or counted only (40_accumulate.md R92). -/

open Sys2Proof Sys2Proof.Machine

namespace Sys2Proof.Proofs

/-- The word of a push is its opcode plus its index: the sum stays below 2^16. -/
theorem toNat_encode_push (idx : WordIndex) : (encode (.push idx)).toNat = 0x2000 + idx.toNat := by
  rw [encode]
  bv_omega

/-- A refused command answers the state with its error raised (60_exceptions.md R172). -/
theorem exec_refused {i : Instr} {s : State} {e : ProtocolError} (h : refusal i s = some e) :
    exec i s = .next (raise e s) := by rw [exec_eq, executed_refused h]

/-- A command that is not refused answers what it leaves when accepted. -/
theorem exec_accepted {i : Instr} {s : State} (h : refusal i s = none) : exec i s = .next (accepted i s) := by
  rw [exec_eq, executed_accepted h]

theorem refusal_push_of_accum {s : State} (hphase : s.phase = .accum) (idx : WordIndex) :
    refusal (.push idx) s = none := by simp [refusal, hphase]

theorem refusal_push_of_not_accum {s : State} (hphase : s.phase ≠ .accum) (idx : WordIndex) :
    refusal (.push idx) s = some .phase := by simp [refusal, hphase]

/-- The DATA of an accepted push: the count is at most 255, so its low byte is the whole count. -/
theorem zext16_nextCount (c : BitVec 8) : zext16 (nextCount c) = BitVec.ofNat 16 (min (c.toNat + 1) 255) := by
  apply BitVec.eq_of_toNat_eq
  simp only [zext16, BitVec.toNat_setWidth, toNat_nextCount, BitVec.toNat_ofNat]

/-- What an accepted push leaves while the store has room. -/
theorem pushed_stored (idx : WordIndex) {s : State} (h : s.wcnt.toNat < 24) :
    pushed idx s = { s with bs := s.bs ++ indexBits idx, wcnt := nextCount s.wcnt } := by
  rw [pushed, storeIndex, Config.wmax, if_pos h]
  rfl

/-- What an accepted push leaves once the store is full: the count alone changes (40_accumulate.md R93). -/
theorem pushed_full (idx : WordIndex) {s : State} (h : 24 ≤ s.wcnt.toNat) :
    pushed idx s = { s with wcnt := nextCount s.wcnt } := by
  rw [pushed, storeIndex, Config.wmax, if_neg (Nat.not_lt.2 h)]
  rfl

/-- Settles O16: outside ACCUM the push is refused; in ACCUM it is accepted and leaves `pushed`, which
`pushed_stored` and `pushed_full` write out, and answers the count. -/
theorem pushAppendsOneIndex : Obligations.PushAppendsOneIndex := by
  refine ⟨toNat_encode_push, fun idx s hphase => ?refused, fun idx s hphase hroom => ?stored,
    fun idx s hphase hfull => ?full⟩
  case refused =>
    rw [exec_refused (refusal_push_of_not_accum hphase idx)]
    rfl
  case stored =>
    rw [exec_accepted (refusal_push_of_accum hphase idx), accepted, pushed_wcnt, zext16_nextCount,
      pushed_stored idx hroom]
    rfl
  case full =>
    rw [exec_accepted (refusal_push_of_accum hphase idx), accepted, pushed_wcnt, zext16_nextCount,
      pushed_full idx hfull]
    rfl

end Sys2Proof.Proofs
end

section
/-! PROOFS. More pushes than the store holds: they are counted, and the phrase window can then only end in
`InvalidWordCount` (40_accumulate.md R93). -/

open Sys2Proof Sys2Proof.Machine

namespace Sys2Proof.Proofs

/-! ## The store and the count of a full window -/

@[simp] theorem finalisedStrict_bs (s : State) : (finalisedStrict s).bs = s.bs := by
  obtain ⟨-, h⟩ | ⟨-, -, h⟩ | ⟨-, -, h⟩ := finalisedStrict_cases s <;> simp [h]

@[simp] theorem finalisedStrict_wcnt (s : State) : (finalisedStrict s).wcnt = s.wcnt := by
  obtain ⟨-, h⟩ | ⟨-, -, h⟩ | ⟨-, -, h⟩ := finalisedStrict_cases s <;> simp [h]

@[simp] theorem finalisedLenient_bs (s : State) : (finalisedLenient s).bs = s.bs := by
  obtain ⟨-, h⟩ | ⟨-, h⟩ := finalisedLenient_cases s <;> simp [h]

@[simp] theorem finalisedLenient_wcnt (s : State) : (finalisedLenient s).wcnt = s.wcnt := by
  obtain ⟨-, h⟩ | ⟨-, h⟩ := finalisedLenient_cases s <;> simp [h]

/-- A push never lowers the count (10_state.md R23). -/
theorem toNat_le_toNat_nextCount (c : BitVec 8) : c.toNat ≤ (nextCount c).toNat := by
  have hlt := c.isLt
  rw [toNat_nextCount]
  omega

/-- Only `CLR` lowers the count. -/
theorem wcnt_le_accepted {i : Instr} (hi : i ≠ .clr) (s : State) :
    s.wcnt.toNat ≤ (accepted i s).wcnt.toNat := by
  cases i with
  | clr => exact absurd rfl hi
  | push idx => simpa only [accepted, respond_wcnt, pushed_wcnt] using toNat_le_toNat_nextCount s.wcnt
  | finS => simp [accepted]
  | finL => simp [accepted]
  | stat => exact le_rfl
  | rdb n => exact le_rfl
  | rdl => exact le_rfl
  | rdc => exact le_rfl

/-- Only `CLR` changes a full store: `PUSH` is the one command that stores bits, and it discards them there. -/
theorem accepted_bs_of_full {i : Instr} (hi : i ≠ .clr) {s : State} (hfull : 24 ≤ s.wcnt.toNat) :
    (accepted i s).bs = s.bs := by
  cases i with
  | clr => exact absurd rfl hi
  | push idx => exact pushed_bs_full idx s hfull
  | finS => exact finalisedStrict_bs s
  | finL => exact finalisedLenient_bs s
  | stat => rfl
  | rdb n => rfl
  | rdl => rfl
  | rdc => rfl

/-- Every word but `CLR` keeps a full store and does not lower its count. -/
theorem issued_full {w : CommandWord} (hw : w ≠ 0x1000) {s : State} (hfull : 24 ≤ s.wcnt.toNat) :
    (issued w s).bs = s.bs ∧ s.wcnt.toNat ≤ (issued w s).wcnt.toNat := by
  cases h : wordRefusal w s with
  | some e =>
    rw [issued_refused h]
    exact ⟨rfl, le_rfl⟩
  | none =>
    obtain ⟨i, hd, hi⟩ := issued_accepted h
    have hclr := ne_clr_of_decode hd hw
    rw [hi]
    exact ⟨accepted_bs_of_full hclr hfull, wcnt_le_accepted hclr s⟩

/-- Under the invariant a full store holds 264 bits (10_state.md R34 item 1). -/
theorem length_bs_of_full {s : State} (hinv : StateInv s) (hfull : 24 ≤ s.wcnt.toNat) : s.bs.length = 264 := by
  rw [hinv.length, Config.wmax, Nat.min_eq_right hfull]

/-! ## Its finalise -/

/-- A count above 24 is not in `VALID_WC` (00_scope.md R5). -/
theorem validWordCount_eq_false_of_lt {n : Nat} (h : 24 < n) : validWordCount n = false := by
  rw [Bool.eq_false_iff, ne_eq, validWordCount_iff_mem]
  simp only [List.mem_cons, List.not_mem_nil, or_false]
  omega

theorem finalisedStrict_of_invalid {s : State} (h : validWordCount s.wcnt.toNat = false) :
    finalisedStrict s = failCount .strict s := by simp [finalisedStrict, h]

theorem finalisedLenient_of_invalid {s : State} (h : validWordCount s.wcnt.toNat = false) :
    finalisedLenient s = failCount .lenient s := by simp [finalisedLenient, h]

/-- A finalise with an invalid count answers the status of `FAIL` with `InvalidWordCount`, in either mode
(41_finalize.md R113). -/
theorem exec_finalise_of_invalid {s : State} (hphase : s.phase = .accum)
    (hcount : validWordCount s.wcnt.toNat = false) (mode : Mode) :
    exec (finaliseInstr mode) s = .next (respond (statusWord (failCount mode s)) (failCount mode s)) := by
  cases mode with
  | strict =>
    rw [finaliseInstr, exec_accepted (by simp [refusal, hphase]), accepted, finalisedStrict_of_invalid hcount]
  | lenient =>
    rw [finaliseInstr, exec_accepted (by simp [refusal, hphase]), accepted, finalisedLenient_of_invalid hcount]

/-- Outside phase OK no byte is readable (43_readout.md R156). -/
theorem exec_rdb_of_not_ok {s : State} (hphase : s.phase ≠ .ok) (n : OutAddr) :
    exec (.rdb n) s = .next (raise .notReady s) :=
  exec_refused (by simp [refusal, hphase])

/-- Settles O17: a push into a full store leaves `pushed_full`; by `issued_full` no later word but `CLR` takes the
window back; its count is above every valid one, so either finalise ends in `InvalidWordCount`. -/
theorem pushBeyondCapacityIsCountedOnly : Obligations.PushBeyondCapacityIsCountedOnly := by
  refine ⟨fun idx s hinv hphase hfull => ?push, fun s t w rest hover hin hw hstep => ?later,
    fun s i hover hphase hi => ?finalise⟩
  case push =>
    have hlen := length_bs_of_full hinv hfull
    have hcount := toNat_nextCount s.wcnt
    have hlt := s.wcnt.isLt
    refine ⟨_, exec_accepted (refusal_push_of_accum hphase idx), ?_⟩
    rw [accepted, pushed_full idx hfull]
    refine ⟨rfl, hlen, hcount, rfl, hphase, ?count, ?blen⟩
    case count =>
      simp only [respond_wcnt]
      omega
    case blen =>
      rw [lenWord_blen, respond_bs, hlen]
      rfl
  case later =>
    rw [← stepped_of_step hstep, stepped_command hin]
    obtain ⟨hbs, hle⟩ := issued_full hw (s := { s with inputs := rest }) hover.le
    exact ⟨hover.trans_le hle, hbs, hle⟩
  case finalise =>
    obtain ⟨mode, rfl⟩ : ∃ mode, i = finaliseInstr mode := by
      obtain rfl | rfl := hi
      · exact ⟨.strict, rfl⟩
      · exact ⟨.lenient, rfl⟩
    exact ⟨_, exec_finalise_of_invalid hphase (validWordCount_eq_false_of_lt hover) mode, rfl, rfl,
      fun n => exec_rdb_of_not_ok (by simp) n⟩

end Sys2Proof.Proofs
end

section
/-! PROOFS. A finalise of either mode: when it is accepted, its outcomes, and that it checks the word count first
(41_finalize.md R110 to R113). -/

open Sys2Proof Sys2Proof.Machine

namespace Sys2Proof.Proofs

/-- What an accepted finalise leaves, by its mode (41_finalize.md R110). -/
def finalised : Mode → State → State
  | .strict  => finalisedStrict
  | .lenient => finalisedLenient

theorem accepted_finalise (mode : Mode) (s : State) :
    accepted (finaliseInstr mode) s = respond (statusWord (finalised mode s)) (finalised mode s) := by
  cases mode <;> rfl

theorem refusal_finalise_of_accum {s : State} (hphase : s.phase = .accum) (mode : Mode) :
    refusal (finaliseInstr mode) s = none := by cases mode <;> simp [finaliseInstr, refusal, hphase]

theorem refusal_finalise_of_not_accum {s : State} (hphase : s.phase ≠ .accum) (mode : Mode) :
    refusal (finaliseInstr mode) s = some .phase := by cases mode <;> simp [finaliseInstr, refusal, hphase]

/-- In ACCUM a finalise is accepted and answers the status it leaves. -/
theorem exec_finalise_of_accum {s : State} (hphase : s.phase = .accum) (mode : Mode) :
    exec (finaliseInstr mode) s = .next (respond (statusWord (finalised mode s)) (finalised mode s)) := by
  rw [exec_accepted (refusal_finalise_of_accum hphase mode), accepted_finalise]

/-- Outside ACCUM a finalise is refused with `E_PHASE`. -/
theorem exec_finalise_of_not_accum {s : State} (hphase : s.phase ≠ .accum) (mode : Mode) :
    exec (finaliseInstr mode) s = .next (raise .phase s) :=
  exec_refused (refusal_finalise_of_not_accum hphase mode)

/-! ## The outcomes -/

theorem validWordCount_eq_false_iff_notMem (n : Nat) : validWordCount n = false ↔ n ∉ [12, 15, 18, 21, 24] := by
  rw [← validWordCount_iff_mem, Bool.not_eq_true]

/-- Every valid count fits the store, whose capacity is 24 words (00_scope.md R5). -/
theorem le_of_validWordCount {n : Nat} (h : validWordCount n = true) : n ≤ 24 := by
  by_contra hlt
  simp [validWordCount_eq_false_of_lt (Nat.not_le.1 hlt)] at h

/-- The first check: an invalid count ends either mode in the same way. -/
theorem finalised_of_invalid {s : State} (h : validWordCount s.wcnt.toNat = false) (mode : Mode) :
    finalised mode s = failCount mode s := by
  cases mode with
  | strict => exact finalisedStrict_of_invalid h
  | lenient => exact finalisedLenient_of_invalid h

theorem finalisedStrict_of_match {s : State} (hcount : validWordCount s.wcnt.toNat = true)
    (hsum : checksumGot s.wcnt.toNat s.bs = checksumExpected s.wcnt.toNat s.bs) :
    finalisedStrict s = succeed .strict (strictOlen s.wcnt.toNat) (latchChecksums s.wcnt.toNat s) := by
  simp [finalisedStrict, compareChecksums, hcount, hsum]

theorem finalisedStrict_of_mismatch {s : State} (hcount : validWordCount s.wcnt.toNat = true)
    (hsum : checksumGot s.wcnt.toNat s.bs ≠ checksumExpected s.wcnt.toNat s.bs) :
    finalisedStrict s = failChecksum (latchChecksums s.wcnt.toNat s) := by
  simp [finalisedStrict, compareChecksums, hcount, hsum]

theorem finalisedLenient_of_valid {s : State} (hcount : validWordCount s.wcnt.toNat = true) :
    finalisedLenient s = succeed .lenient (lenientOlen s.wcnt.toNat) s := by simp [finalisedLenient, hcount]

/-- With a valid count no finalise ends in `InvalidWordCount`. -/
theorem finalised_fcode_of_valid {s : State} (hcount : validWordCount s.wcnt.toNat = true) (mode : Mode) :
    (finalised mode s).fcode ≠ .invalidWordCount := by
  cases mode with
  | strict =>
    by_cases hsum : checksumGot s.wcnt.toNat s.bs = checksumExpected s.wcnt.toNat s.bs
    · simp [finalised, finalisedStrict_of_match hcount hsum]
    · simp [finalised, finalisedStrict_of_mismatch hcount hsum]
  | lenient => simp [finalised, finalisedLenient_of_valid hcount]

theorem finalised_fcode_eq_invalidWordCount_iff (mode : Mode) (s : State) :
    (finalised mode s).fcode = .invalidWordCount ↔ validWordCount s.wcnt.toNat = false := by
  cases hcount : validWordCount s.wcnt.toNat with
  | false => simp [finalised_of_invalid hcount]
  | true => simp [finalised_fcode_of_valid hcount]

/-- `ChecksumMismatch` needs a comparison: `FIN.S` with a valid count. -/
theorem of_finalised_fcode_eq_checksumMismatch {mode : Mode} {s : State}
    (h : (finalised mode s).fcode = .checksumMismatch) :
    mode = .strict ∧ validWordCount s.wcnt.toNat = true := by
  cases hcount : validWordCount s.wcnt.toNat with
  | false => simp [finalised_of_invalid hcount] at h
  | true =>
    cases mode with
    | strict => exact ⟨rfl, rfl⟩
    | lenient => simp [finalised, finalisedLenient_of_valid hcount] at h

/-- In an open window no checksum is latched yet (10_state.md R34 item 3). -/
theorem checksums_of_accum {s : State} (hinv : StateInv s) (hphase : s.phase = .accum) :
    s.csgot = 0 ∧ s.csexp = 0 := by
  obtain ⟨-, -, -, hgot, hexp⟩ := hinv.accum hphase
  exact ⟨hgot, hexp⟩

/-- Settles O27: either finalise leaves `finalised`, which is `failCount` on an invalid count and has another failure
class on a valid one. -/
theorem wordCountIsCheckedFirst : Obligations.WordCountIsCheckedFirst := by
  intro s t i mode hphase hi hexec
  obtain rfl : i = finaliseInstr mode := by
    obtain ⟨rfl, rfl⟩ | ⟨rfl, rfl⟩ := hi <;> rfl
  obtain rfl := Host.Outcome.next.inj ((exec_finalise_of_accum hphase mode).symm.trans hexec)
  rw [← validWordCount_eq_false_iff_notMem, ← validWordCount_iff_mem]
  refine ⟨(finalised_fcode_eq_invalidWordCount_iff mode s).symm, fun hcount => ?invalid, fun hcode => ?mismatch⟩
  case invalid =>
    rw [finalised_of_invalid hcount]
    exact ⟨rfl, rfl, rfl, rfl, rfl, fun hinv => checksums_of_accum (s := s) hinv hphase, _, rfl, statusWord_wcnt _⟩
  case mismatch =>
    obtain ⟨rfl, hcount⟩ := of_finalised_fcode_eq_checksumMismatch hcode
    exact ⟨rfl, hcount⟩

end Sys2Proof.Proofs
end

section
/-! PROOFS. `FIN.L` in full (41_finalize.md R112). -/

open Sys2Proof Sys2Proof.Machine

namespace Sys2Proof.Proofs

/-- The readable length of a lenient success fits the six bits of OLEN: it is at most 33. -/
theorem toNat_lenientOlen {n : Nat} (h : validWordCount n = true) : (lenientOlen n).toNat = byteCount (11 * n) := by
  have hle := le_of_validWordCount h
  simp only [lenientOlen, byteCount, BitVec.toNat_ofNat]
  omega

/-- Under the invariant a valid count is the number of words stored (10_state.md R34 item 1). -/
theorem length_bs_of_valid {s : State} (hinv : StateInv s) (hcount : validWordCount s.wcnt.toNat = true) :
    s.bs.length = 11 * s.wcnt.toNat := by
  rw [hinv.length, Config.wmax, Nat.min_eq_left (le_of_validWordCount hcount)]

/-- When OLEN is the number of bytes of the store, the readable bytes are its whole packing (20_memory.md R53). -/
theorem readableBytes_eq_pack8 {s : State} (h : s.olen.toNat = byteCount s.bs.length) :
    readableBytes s = pack8 s.bs := by
  rw [readableBytes, h]
  rfl

/-- Settles O26: refused outside ACCUM; in ACCUM it leaves `failCount` on an invalid count and `succeed` on a valid
one, whose length makes the whole packing readable. -/
theorem lenientFinalise : Obligations.LenientFinalise := by
  refine ⟨rfl, fun s hphase => exec_finalise_of_not_accum hphase .lenient, fun s hphase hcount => ?invalid,
    fun s hphase hcount => ?valid⟩
  case invalid =>
    rw [← validWordCount_eq_false_iff_notMem] at hcount
    exact ⟨_, exec_finalise_of_invalid hphase hcount .lenient, rfl⟩
  case valid =>
    rw [← validWordCount_iff_mem] at hcount
    have hexec := exec_finalise_of_accum hphase .lenient
    rw [finalised, finalisedLenient_of_valid hcount] at hexec
    have holen := toNat_lenientOlen hcount
    refine ⟨_, hexec, rfl, holen, fun hinv => ?_⟩
    obtain ⟨hgot, hexp⟩ := checksums_of_accum hinv hphase
    refine ⟨hgot, hexp, readableBytes_eq_pack8 ?_⟩
    rw [succeed_olen, succeed_bs, holen, length_bs_of_valid hinv hcount]

end Sys2Proof.Proofs
end

section
/-! PROOFS. `FIN.S` in full (41_finalize.md R111). -/

open Sys2Proof Sys2Proof.Machine

namespace Sys2Proof.Proofs

/-- A byte with the value of the checksum segment is the one that `FIN.S` latches. -/
theorem eq_checksumGot {got : Byte} {n : Nat} {m : Memory} (h : got.toNat = val (checksumSegment n m)) :
    got = checksumGot n m := by
  rw [checksumGot, ← h, BitVec.ofNat_toNat, BitVec.setWidth_eq]

/-- At 24 words the whole digest byte is compared. -/
theorem checksumExpected_twentyFour (m : Memory) :
    checksumExpected 24 m = Sha256.digestByte0 (entropyBytes 24 m) :=
  BitVec.ushiftRight_zero _

/-- At 24 words the checksum segment is the last byte of the store, whole. -/
theorem checksumGot_twentyFour {m : Memory} (h : m.length = 264) : checksumGot 24 m = m.outRead 32 :=
  (packByte_eq_val m 32 h.ge).symm

/-- Settles O25: refused outside ACCUM; in ACCUM it leaves `failCount` on an invalid count, and else latches the two
values given and succeeds or fails as they compare. -/
theorem strictFinalise : Obligations.StrictFinalise := by
  refine ⟨rfl, fun s hphase => exec_finalise_of_not_accum hphase .strict, fun s hphase hcount => ?invalid, ?valid⟩
  case invalid =>
    rw [← validWordCount_eq_false_iff_notMem] at hcount
    exact ⟨_, exec_finalise_of_invalid hphase hcount .strict, rfl,
      fun hinv => checksums_of_accum (s := s) hinv hphase⟩
  case valid =>
    rintro s n ent cs dgst expd got hinv hphase rfl hcount rfl rfl rfl hexpd hgot
    rw [← validWordCount_iff_mem] at hcount
    obtain rfl : expd = checksumExpected s.wcnt.toNat s.bs := hexpd
    obtain rfl : got = checksumGot s.wcnt.toNat s.bs := eq_checksumGot hgot
    have hexec := exec_finalise_of_accum hphase .strict
    refine ⟨fun hsum => ?same, fun hsum => ?different, fun hmax => ?corner⟩
    case same =>
      rw [finalised, finalisedStrict_of_match hcount hsum] at hexec
      exact ⟨_, hexec, rfl⟩
    case different =>
      rw [finalised, finalisedStrict_of_mismatch hcount hsum] at hexec
      exact ⟨_, hexec, rfl⟩
    case corner =>
      rw [hmax, checksumExpected_twentyFour, checksumGot_twentyFour (length_bs_of_full hinv hmax.ge)]
      exact ⟨rfl, rfl⟩

end Sys2Proof.Proofs
end

section
/-! PROOFS. The phase transitions (41_finalize.md R118). -/

open Sys2Proof Sys2Proof.Machine

namespace Sys2Proof.Proofs

/-! ## A finalise word -/

theorem issued_finalise_of_accum {w : CommandWord} {mode : Mode} (hd : decode w = .command (finaliseInstr mode))
    {s : State} (hphase : s.phase = .accum) :
    issued w s = respond (statusWord (finalised mode s)) (finalised mode s) := by
  rw [issued_command hd, executed_accepted (refusal_finalise_of_accum hphase mode), accepted_finalise]

/-- A finalise in ACCUM with an invalid count: to FAIL, with FCODE 1. -/
theorem issued_finalise_of_invalid {w : CommandWord} {mode : Mode} (hd : decode w = .command (finaliseInstr mode))
    {s : State} (hphase : s.phase = .accum) (hcount : s.wcnt.toNat ∉ [12, 15, 18, 21, 24]) :
    (issued w s).phase = .fail ∧ (issued w s).fcode.code = 1 := by
  rw [issued_finalise_of_accum hd hphase,
    finalised_of_invalid ((validWordCount_eq_false_iff_notMem _).2 hcount)]
  exact ⟨rfl, rfl⟩

/-- With a valid count `FIN.S` leaves phase OK when the values it latched agree, and FAIL with FCODE 2 when they do
not. -/
theorem finalisedStrict_phase_of_valid {s : State} (hcount : validWordCount s.wcnt.toNat = true) :
    ((finalisedStrict s).csgot ≠ (finalisedStrict s).csexp →
      (finalisedStrict s).phase = .fail ∧ (finalisedStrict s).fcode.code = 2) ∧
    ((finalisedStrict s).csgot = (finalisedStrict s).csexp → (finalisedStrict s).phase = .ok) := by
  by_cases hsum : checksumGot s.wcnt.toNat s.bs = checksumExpected s.wcnt.toNat s.bs
  · rw [finalisedStrict_of_match hcount hsum]
    exact ⟨fun hne => absurd hsum hne, fun _ => rfl⟩
  · rw [finalisedStrict_of_mismatch hcount hsum]
    exact ⟨fun _ => ⟨rfl, rfl⟩, fun heq => absurd heq hsum⟩

/-- `FIN.S` in ACCUM with a valid count: the phase tells whether the latched values agree. -/
theorem issued_finS_of_valid {w : CommandWord} (hd : decode w = .command .finS) {s : State}
    (hphase : s.phase = .accum) (hcount : s.wcnt.toNat ∈ [12, 15, 18, 21, 24]) :
    ((issued w s).csgot ≠ (issued w s).csexp → (issued w s).phase = .fail ∧ (issued w s).fcode.code = 2) ∧
    ((issued w s).csgot = (issued w s).csexp → (issued w s).phase = .ok) := by
  rw [issued_finalise_of_accum (mode := .strict) hd hphase]
  exact finalisedStrict_phase_of_valid ((validWordCount_iff_mem _).2 hcount)

/-- `FIN.L` in ACCUM with a valid count: to OK. -/
theorem issued_finL_of_valid {w : CommandWord} (hd : decode w = .command .finL) {s : State}
    (hphase : s.phase = .accum) (hcount : s.wcnt.toNat ∈ [12, 15, 18, 21, 24]) : (issued w s).phase = .ok := by
  rw [issued_finalise_of_accum (mode := .lenient) hd hphase, finalised,
    finalisedLenient_of_valid ((validWordCount_iff_mem _).2 hcount)]
  rfl

/-! ## The other words -/

theorem issued_clr_phase {w : CommandWord} (hd : decode w = .command .clr) (s : State) :
    (issued w s).phase = .accum := by
  rw [issued_command hd]
  rfl

/-- `PUSH` in ACCUM stays there, at every count (40_accumulate.md R92, R93). -/
theorem issued_push_phase_of_accum {w : CommandWord} {idx : WordIndex} (hd : decode w = .command (.push idx))
    {s : State} (hphase : s.phase = .accum) : (issued w s).phase = .accum := by
  rw [issued_command hd, executed_accepted (refusal_push_of_accum hphase idx), accepted, respond_phase, pushed_phase,
    hphase]

/-- `PUSH` and the finalise words outside ACCUM are refused with `E_PHASE`. -/
theorem wordRefusal_of_not_accum {w : CommandWord} {s : State} (hphase : s.phase ≠ .accum)
    (hd : (∃ idx, decode w = .command (.push idx)) ∨ decode w = .command .finS ∨ decode w = .command .finL) :
    wordRefusal w s = some .phase := by
  obtain ⟨idx, hd⟩ | hd | hd := hd <;> simp [wordRefusal, hd, refusal, hphase]

/-- An accepted read-out only answers. -/
theorem accepted_phase_of_readout {i : Instr} (hi : i = .stat ∨ i = .rdl ∨ i = .rdc ∨ ∃ n, i = .rdb n)
    (s : State) : (accepted i s).phase = s.phase := by
  obtain rfl | rfl | rfl | ⟨n, rfl⟩ := hi <;> rfl

/-- The read-outs and the illegal words keep the phase, refused or not. -/
theorem issued_phase_of_readout_or_illegal {w : CommandWord}
    (hd : decode w = .command .stat ∨ decode w = .command .rdl ∨ decode w = .command .rdc ∨
      (∃ n, decode w = .command (.rdb n)) ∨ (∃ e, decode w = .illegal e)) (s : State) :
    (issued w s).phase = s.phase := by
  cases h : wordRefusal w s with
  | some e => rw [issued_refused h, raise_phase]
  | none =>
    obtain ⟨i, hi, hissued⟩ := issued_accepted h
    rw [hissued]
    exact accepted_phase_of_readout (by simpa [hi] using hd) s

/-- Settles O31: a step on a word leaves what the word leaves, and each row is the lemma above about that word. -/
theorem phaseTransitions : Obligations.PhaseTransitions := by
  refine ⟨fun s t rest hin hstep => ?reset, fun s t w rest hin hstep => ?word⟩
  case reset =>
    rw [← stepped_of_step hstep, stepped_reset hin]
    rfl
  case word =>
    obtain ⟨u, hu, hphase, hwcnt⟩ : ∃ u, stepped s = issued w u ∧ u.phase = s.phase ∧ u.wcnt = s.wcnt :=
      ⟨_, stepped_command hin, rfl, rfl⟩
    rw [← stepped_of_step hstep, hu, ← hphase, ← hwcnt]
    refine ⟨fun hd => issued_clr_phase hd u,
      fun idx hd hu => issued_push_phase_of_accum hd hu,
      fun hd hu hcount => issued_finalise_of_invalid (mode := .strict) hd hu hcount,
      fun hd hu hcount => (issued_finS_of_valid hd hu hcount).1,
      fun hd hu hcount => (issued_finS_of_valid hd hu hcount).2,
      fun hd hu hcount => issued_finalise_of_invalid (mode := .lenient) hd hu hcount,
      fun hd hu hcount => issued_finL_of_valid hd hu hcount,
      fun hd hu => ?refused,
      fun hd => issued_phase_of_readout_or_illegal hd u⟩
    case refused =>
      rw [issued_refused (wordRefusal_of_not_accum hu hd)]
      exact ⟨rfl, rfl⟩

end Sys2Proof.Proofs
end

section
/-! PROOFS. When a read-out is accepted (43_readout.md R150). -/

open Sys2Proof Sys2Proof.Machine

namespace Sys2Proof.Proofs

/-- ERR = 0 tells that the command was not refused (30_encoding.md R76). -/
theorem executed_rsp_accepted_iff (i : Instr) (s : State) :
    (∃ d, (executed i s).rsp = some ⟨false, d⟩) ↔ refusal i s = none := by
  cases h : refusal i s with
  | some e => simp [executed_refused h]
  | none => simp [executed_accepted h, accepted_rsp]

theorem refusal_rdb_of_ok {s : State} (hphase : s.phase = .ok) (n : OutAddr) :
    refusal (.rdb n) s = if n.toNat < s.olen.toNat then none else some .range := if_pos hphase

theorem refusal_rdb_of_not_ok {s : State} (hphase : s.phase ≠ .ok) (n : OutAddr) :
    refusal (.rdb n) s = some .notReady := if_neg hphase

theorem refusal_rdb_eq_none_iff (n : OutAddr) (s : State) :
    refusal (.rdb n) s = none ↔ s.phase = .ok ∧ n.toNat < s.olen.toNat := by
  by_cases hphase : s.phase = .ok
  · simp [refusal_rdb_of_ok hphase, hphase]
  · simp [refusal_rdb_of_not_ok hphase, hphase]

/-- Settles O48: the three words have no refusal, and `RDB` is answered with ERR = 0 exactly when it is not refused. -/
theorem bytesAreReadableOnlyAfterSuccess : Obligations.BytesAreReadableOnlyAfterSuccess := by
  refine ⟨fun s i hi => ?words, fun s t n hexec => ?bytes⟩
  case words => obtain rfl | rfl | rfl := hi <;> exact ⟨_, exec_accepted rfl⟩
  case bytes =>
    obtain rfl := Host.Outcome.next.inj ((exec_eq _ s).symm.trans hexec)
    rw [executed_rsp_accepted_iff, refusal_rdb_eq_none_iff]

end Sys2Proof.Proofs
end

section
/-! PROOFS. `STAT` in full (43_readout.md R151). -/

open Sys2Proof Sys2Proof.Machine

namespace Sys2Proof.Proofs

/-- Setting a one-bit field of a word is an `OR` with that bit alone. -/
theorem append_true_eq_or {m k l j : Nat} (a : BitVec m) (p : Bool) (b : BitVec k) (c : BitVec l) (d : BitVec j) :
    a ++ BitVec.ofBool true ++ b ++ c ++ d =
      (a ++ BitVec.ofBool p ++ b ++ c ++ d) ||| (0#m ++ 1#1 ++ 0#k ++ 0#l ++ 0#j) := by
  have hbit : BitVec.ofBool p ||| 1#1 = BitVec.ofBool true := by cases p <;> rfl
  simp only [BitVec.or_append, BitVec.or_zero, hbit]

/-- A refusal sets bit 5 of STATUS and nothing else (60_exceptions.md R172). -/
theorem statusWord_raise (e : ProtocolError) (s : State) : statusWord (raise e s) = statusWord s ||| 0x0020 :=
  append_true_eq_or (s.wcnt ++ 0#2) s.perr s.fmode.code s.fcode.code s.phase.code

/-- Settles O44: `STAT` is never refused and answers the STATUS word, whose fields the lemmas of that word give. -/
theorem statusReadout : Obligations.StatusReadout :=
  ⟨rfl, fun s => ⟨statusWord s, exec_accepted rfl, statusWord_phase s, statusWord_fcode s, statusWord_fmode s,
    getLsbD_of_extract _ 5 _ (statusWord_perr s), statusWord_reserved s, statusWord_wcnt s⟩,
    exec_accepted rfl, fun s e => statusWord_raise e s⟩

end Sys2Proof.Proofs
end

section
/-! PROOFS. `RDL` in full (43_readout.md R153). -/

open Sys2Proof Sys2Proof.Machine

namespace Sys2Proof.Proofs

/-- Under the invariant the store never exceeds its capacity (10_state.md R34 item 1). -/
theorem length_bs_le {s : State} (hinv : StateInv s) : s.bs.length ≤ 264 := by
  have hlen := hinv.length
  simp only [Config.wmax] at hlen
  omega

/-- The nine bits of BLEN hold every length the store can have. -/
theorem toNat_lenWord_blen {s : State} (hinv : StateInv s) :
    ((lenWord s).extractLsb' 7 9).toNat = s.bs.length := by
  have hle := length_bs_le hinv
  rw [lenWord_blen, BitVec.toNat_ofNat, Nat.mod_eq_of_lt (by omega)]

/-- No byte is readable outside OK (10_state.md R34 items 3 and 5). -/
theorem olen_of_not_ok {s : State} (hinv : StateInv s) (hphase : s.phase ≠ .ok) : s.olen = 0 := by
  cases h : s.phase with
  | accum =>
    obtain ⟨-, -, holen, -, -⟩ := hinv.accum h
    exact holen
  | ok => exact absurd h hphase
  | fail =>
    obtain ⟨holen, -, -, -⟩ := hinv.fail h
    exact holen

@[simp] theorem length_accumulator_buf (m : Memory) : m.accumulator.buf.length = m.length / 8 := by
  simp [Memory.accumulator, Memory.nbytes]

/-- Settles O45: `RDL` is never refused and answers the LEN word, in which BLEN is the length of the store. -/
theorem lengthReadout : Obligations.LengthReadout := by
  refine ⟨rfl, fun s => ⟨lenWord s, exec_accepted rfl, lenWord_olen s,
    getLsbD_of_extract _ 6 false (lenWord_reserved s), fun hinv => ?_⟩⟩
  rw [toNat_lenWord_blen hinv]
  exact ⟨rfl, hinv.length, rfl, (length_accumulator_buf s.bs).symm, olen_of_not_ok hinv⟩

end Sys2Proof.Proofs
end

section
/-! PROOFS. `RDC` in full (43_readout.md R154). -/

open Sys2Proof Sys2Proof.Machine

namespace Sys2Proof.Proofs

/-- Unless a `FIN.S` with a valid count was accepted, no checksum is latched (10_state.md R34 items 3 to 5). -/
theorem checksums_of_not_hashed {s : State} (hinv : StateInv s) (hnot : ¬ Hashed s) : s.csgot = 0 ∧ s.csexp = 0 := by
  cases hphase : s.phase with
  | accum => exact checksums_of_accum hinv hphase
  | ok =>
    obtain ⟨-, hcount, -, hlenient⟩ := hinv.ok hphase
    cases hmode : s.fmode with
    | strict => exact absurd ⟨by simp [hphase], hmode, hcount⟩ hnot
    | lenient =>
      obtain ⟨-, hzero⟩ := hlenient hmode
      exact hzero
  | fail =>
    obtain ⟨-, hcode | hcode, hinvalid, hmismatch⟩ := hinv.fail hphase
    · obtain ⟨-, hzero⟩ := hinvalid hcode
      exact hzero
    · obtain ⟨hmode, hcount, -⟩ := hmismatch hcode
      exact absurd ⟨by simp [hphase], hmode, hcount⟩ hnot

/-- After a success both values agree: compared in strict mode, both 0 in lenient mode. -/
theorem checksums_eq_of_ok {s : State} (hinv : StateInv s) (hphase : s.phase = .ok) : s.csgot = s.csexp := by
  obtain ⟨-, -, hstrict, hlenient⟩ := hinv.ok hphase
  cases hmode : s.fmode with
  | strict =>
    obtain ⟨-, heq⟩ := hstrict hmode
    exact heq
  | lenient =>
    obtain ⟨-, hgot, hexp⟩ := hlenient hmode
    rw [hgot, hexp]

theorem checksums_ne_of_mismatch {s : State} (hinv : StateInv s) (hcode : s.fcode = .checksumMismatch)
    (hphase : s.phase = .fail) : s.csgot ≠ s.csexp := by
  obtain ⟨-, -, -, hmismatch⟩ := hinv.fail hphase
  obtain ⟨-, -, hne⟩ := hmismatch hcode
  exact hne

/-- Settles O46: `RDC` is never refused and answers the CSUM word, whose two bytes are the values the invariant speaks
of. -/
theorem checksumReadout : Obligations.ChecksumReadout := by
  refine ⟨rfl, fun s => ⟨csumWord s, exec_accepted rfl, csumWord_csgot s, csumWord_csexp s, fun hinv => ?_⟩⟩
  rw [csumWord_csgot, csumWord_csexp]
  refine ⟨fun hnot => ?zero, fun hhashed => ?width, checksums_eq_of_ok hinv, checksums_ne_of_mismatch hinv⟩
  case zero =>
    obtain ⟨hgot, hexp⟩ := checksums_of_not_hashed hinv hnot
    rw [csumWord, hgot, hexp]
    rfl
  case width =>
    obtain ⟨-, -, hcount⟩ := hhashed
    exact hinv.width hcount

end Sys2Proof.Proofs
end

section
/-! PROOFS. `RDB` in full (43_readout.md R156). -/

open Sys2Proof Sys2Proof.Machine

namespace Sys2Proof.Proofs

/-- The word of a byte read is its opcode plus its address: the sum stays below 2^16. -/
theorem toNat_encode_rdb (n : OutAddr) : (encode (.rdb n)).toNat = 0x4000 + n.toNat := by
  rw [encode]
  bv_omega

theorem exec_rdb_of_olen_le {s : State} (hphase : s.phase = .ok) {n : OutAddr} (hge : s.olen.toNat ≤ n.toNat) :
    exec (.rdb n) s = .next (raise .range s) :=
  exec_refused ((refusal_rdb_of_ok hphase n).trans (if_neg (Nat.not_lt.2 hge)))

theorem exec_rdb_of_lt_olen {s : State} (hphase : s.phase = .ok) {n : OutAddr} (hlt : n.toNat < s.olen.toNat) :
    exec (.rdb n) s = .next (respond (zext16 (s.bs.outRead n.toNat)) s) :=
  exec_accepted ((refusal_rdb_eq_none_iff n s).2 ⟨hphase, hlt⟩)

/-- Every readable address is backed by the store: a strict success reads the entropy segment only, a lenient one
every byte (10_state.md R27). -/
theorem olen_le_byteCount {s : State} (hinv : StateInv s) (hphase : s.phase = .ok) :
    s.olen.toNat ≤ byteCount s.bs.length := by
  obtain ⟨-, hcount, hstrict, hlenient⟩ := hinv.ok hphase
  rw [length_bs_of_valid hinv hcount]
  cases hmode : s.fmode with
  | strict =>
    obtain ⟨holen, -⟩ := hstrict hmode
    rw [holen, entBits, byteCount]
    omega
  | lenient =>
    obtain ⟨holen, -⟩ := hlenient hmode
    exact holen.le

/-- At most 33 bytes are readable, 264 bits of store (00_scope.md R7). -/
theorem olen_le {s : State} (hinv : StateInv s) (hphase : s.phase = .ok) : s.olen.toNat ≤ 33 := by
  have hle := olen_le_byteCount hinv hphase
  have hlen := length_bs_le hinv
  rw [byteCount] at hle
  omega

theorem zext16_byte_eq_append (b : Byte) : zext16 b = (0#8 ++ b : BitVec (8 + 8)) :=
  BitVec.setWidth_eq_append (by decide)

theorem zext16_byte_low (b : Byte) : (zext16 b).extractLsb' 0 8 = b := by
  rw [zext16_byte_eq_append]
  exact extract_low _ _

theorem zext16_byte_high (b : Byte) : (zext16 b).extractLsb' 8 8 = 0 := by
  rw [zext16_byte_eq_append]
  exact (extract_high (n := 8) _ _ 0 8).trans (extract_all _)

/-- Settles O47: the two refusals and the accepted read are the three `exec_rdb` lemmas; the byte read is backed by the
store, and what an accepted read leaves is in phase OK with the same OLEN, so that the read repeats. -/
theorem byteReadout : Obligations.ByteReadout := by
  refine ⟨toNat_encode_rdb, fun n s hphase => exec_rdb_of_not_ok hphase n,
    fun n s hphase hge => exec_rdb_of_olen_le hphase hge, fun n s hinv hphase hlt => ?byte,
    fun n s hinv hbeyond => ?beyond, fun s hinv hphase => ?lengths⟩
  case byte =>
    have hbacked : n.toNat < byteCount s.bs.length := hlt.trans_le (olen_le_byteCount hinv hphase)
    refine ⟨_, exec_rdb_of_lt_olen hphase hlt, hbacked, zext16_byte_high _, ?value,
      exec_rdb_of_lt_olen (s := respond _ s) hphase hlt⟩
    case value => rw [zext16_byte_low, Memory.pack8_getElem? _ _ (decide_eq_true hbacked)]
  case beyond =>
    by_cases hphase : s.phase = .ok
    · exact .inr (exec_rdb_of_olen_le hphase ((olen_le hinv hphase).trans hbeyond))
    · exact .inl (exec_rdb_of_not_ok hphase n)
  case lengths =>
    obtain ⟨-, -, hstrict, hlenient⟩ := hinv.ok hphase
    exact ⟨fun hmode => (hstrict hmode).left, fun hmode => (hlenient hmode).left⟩

end Sys2Proof.Proofs
end

section
/-! PROOFS. Which protocol error a word raises, and the code it answers (60_exceptions.md R171). -/

open Sys2Proof Sys2Proof.Machine

namespace Sys2Proof.Proofs

/-! ## When a word raises each error -/

theorem refusal_rdb_eq_some_iff (n : OutAddr) (s : State) (e : ProtocolError) :
    refusal (.rdb n) s = some e ↔
      (e = .notReady ∧ s.phase ≠ .ok) ∨ (e = .range ∧ s.phase = .ok ∧ s.olen.toNat ≤ n.toNat) := by
  by_cases hphase : s.phase = .ok
  · simp [refusal_rdb_of_ok hphase, hphase, and_comm, eq_comm]
  · simp [refusal_rdb_of_not_ok hphase, hphase, eq_comm]

/-- The events of a command: the phase gate of `PUSH` and the finalise commands, that of `RDB`, and its range. -/
theorem refusal_eq_some_iff (i : Instr) (s : State) (e : ProtocolError) :
    refusal i s = some e ↔
      (e = .phase ∧ s.phase ≠ .accum ∧ ((∃ idx, i = .push idx) ∨ i = .finS ∨ i = .finL)) ∨
      (e = .notReady ∧ s.phase ≠ .ok ∧ ∃ n, i = .rdb n) ∨
      (e = .range ∧ s.phase = .ok ∧ ∃ n, i = .rdb n ∧ s.olen.toNat ≤ n.toNat) := by
  cases i with
  | rdb n => simp [refusal_rdb_eq_some_iff]
  | push idx => simp [refusal, and_comm, eq_comm]
  | finS => simp [refusal, and_comm, eq_comm]
  | finL => simp [refusal, and_comm, eq_comm]
  | stat => simp [refusal]
  | clr => simp [refusal]
  | rdl => simp [refusal]
  | rdc => simp [refusal]

/-- The events of a word: the verdict of the decoder, and behind it those of its command (60_exceptions.md R174). -/
theorem wordRefusal_eq_some_iff (w : CommandWord) (s : State) (e : ProtocolError) :
    wordRefusal w s = some e ↔
      (e = .illegal ∧ ∃ why, decode w = .illegal why) ∨
      (e = .phase ∧ s.phase ≠ .accum ∧
        ((∃ idx, decode w = .command (.push idx)) ∨ decode w = .command .finS ∨ decode w = .command .finL)) ∨
      (e = .notReady ∧ s.phase ≠ .ok ∧ ∃ n, decode w = .command (.rdb n)) ∨
      (e = .range ∧ s.phase = .ok ∧ ∃ n, decode w = .command (.rdb n) ∧ s.olen.toNat ≤ n.toNat) := by
  cases hd : decode w with
  | command i => simp [wordRefusal, hd, refusal_eq_some_iff]
  | illegal why => simp [wordRefusal, hd, eq_comm]

/-! ## The response of a refusal is the code of its error -/

theorem code_eq_code_iff (e e' : ProtocolError) : e.code = e'.code ↔ e = e' := by
  cases e <;> cases e' <;> decide

/-- ERR = 1 tells that the word was refused, and DATA with which error. -/
theorem issued_rsp_refused_iff (w : CommandWord) (s : State) (d : DataWord) :
    (issued w s).rsp = some ⟨true, d⟩ ↔ ∃ e, wordRefusal w s = some e ∧ e.code = d := by
  cases h : wordRefusal w s with
  | some e => simp [issued_refused h]
  | none =>
    obtain ⟨i, -, hi⟩ := issued_accepted h
    simp [hi, accepted_rsp_eq]

theorem issued_rsp_eq_code_iff (w : CommandWord) (s : State) (e : ProtocolError) :
    (issued w s).rsp = some ⟨true, e.code⟩ ↔ wordRefusal w s = some e := by
  simp [issued_rsp_refused_iff, code_eq_code_iff]

/-- Settles O52: the response names the error of the word, and `wordRefusal_eq_some_iff` says when it is each of
the four, of which one is the decoder's verdict; every code is that of an error. -/
theorem refusalCodes : Obligations.RefusalCodes := by
  intro s t w rest hin hstep
  rw [← stepped_of_step hstep, stepped_command hin, no_row_selects_iff]
  refine ⟨?illegal, ?phase, ?notReady, ?range, fun d hrsp => ?codes⟩
  case illegal => exact (issued_rsp_eq_code_iff w _ .illegal).trans (by simp [wordRefusal_eq_some_iff])
  case phase => exact (issued_rsp_eq_code_iff w _ .phase).trans (by simp [wordRefusal_eq_some_iff])
  case notReady => exact (issued_rsp_eq_code_iff w _ .notReady).trans (by simp [wordRefusal_eq_some_iff])
  case range => exact (issued_rsp_eq_code_iff w _ .range).trans (by simp [wordRefusal_eq_some_iff])
  case codes =>
    obtain ⟨e, -, rfl⟩ := (issued_rsp_refused_iff w _ d).1 hrsp
    cases e <;> decide

end Sys2Proof.Proofs
end

section
/-! PROOFS. One event per command, in the order of its checks (60_exceptions.md R174). -/

open Sys2Proof Sys2Proof.Machine

namespace Sys2Proof.Proofs

/-- A step on a word that has an event raises it and does nothing else (60_exceptions.md R172). -/
theorem step_refused {s : State} {w : CommandWord} {rest : List HostInput} {e : ProtocolError}
    (hin : s.inputs = .command w :: rest) (h : wordRefusal w s = some e) :
    step s = .next (raise e { s with inputs := rest }) := by
  rw [step_eq, stepped_command hin, issued_refused ((wordRefusal_inputs w s rest).trans h)]

/-- A step on a word that has no event is answered with ERR = 0. -/
theorem step_accepted {s : State} {w : CommandWord} {rest : List HostInput}
    (hin : s.inputs = .command w :: rest) (h : wordRefusal w s = none) :
    ∃ t d, step s = .next t ∧ t.rsp = some ⟨false, d⟩ := by
  obtain ⟨i, -, hi⟩ := issued_accepted ((wordRefusal_inputs w s rest).trans h)
  obtain ⟨d, hrsp⟩ := accepted_rsp i { s with inputs := rest }
  exact ⟨_, d, step_eq s, by rw [stepped_command hin, hi, hrsp]⟩

/-- Settles O54: the one event of a word is its `wordRefusal`, whose clauses `wordRefusal_eq_some_iff` gives in
order; a `FIN.S` with an invalid count leaves `failCount`, where no checksum was computed. -/
theorem oneEventPerCommand : Obligations.OneEventPerCommand := by
  refine ⟨fun s w rest hin => ⟨fun why hd => ?illegal, fun i hd hphase hi => ?phase, fun n hd hphase => ?notReady,
    fun n hd hphase hge => ?range, step_accepted hin⟩, fun s t hphase hexec hcount => ?count⟩
  case illegal => exact step_refused hin ((wordRefusal_eq_some_iff ..).2 (.inl ⟨rfl, why, hd⟩))
  case phase => exact step_refused hin (wordRefusal_of_not_accum hphase (by simpa [hd] using hi))
  case notReady =>
    exact step_refused hin ((wordRefusal_eq_some_iff ..).2 (.inr (.inr (.inl ⟨rfl, hphase, n, hd⟩))))
  case range =>
    exact step_refused hin ((wordRefusal_eq_some_iff ..).2 (.inr (.inr (.inr ⟨rfl, hphase, n, hd, hge⟩))))
  case count =>
    rw [← validWordCount_eq_false_iff_notMem] at hcount
    obtain rfl := Host.Outcome.next.inj ((exec_finalise_of_invalid hphase hcount .strict).symm.trans hexec)
    exact ⟨rfl, rfl⟩

end Sys2Proof.Proofs
end

section
/-! PROOFS. A refused command changes PERR alone, and what the next command does then (60_exceptions.md R172). -/

open Sys2Proof Sys2Proof.Machine

namespace Sys2Proof.Proofs

/-! ## No command reads PERR but into STATUS -/

theorem refusal_sameButPerr {s t : State} (h : SameButPerr s t) (i : Instr) : refusal i s = refusal i t := by
  obtain ⟨-, -, hphase, -, -, holen, -, -⟩ := h
  cases i <;> simp only [refusal, hphase, holen]

theorem wordRefusal_sameButPerr {s t : State} (h : SameButPerr s t) (w : CommandWord) :
    wordRefusal w s = wordRefusal w t := by
  cases hd : decode w with
  | command i => simp only [wordRefusal, hd, refusal_sameButPerr h]
  | illegal why => simp only [wordRefusal, hd]

theorem pushed_sameButPerr {s t : State} (h : SameButPerr s t) (idx : WordIndex) :
    SameButPerr (pushed idx s) (pushed idx t) := by
  obtain ⟨hbs, hwcnt, hrest⟩ := h
  rcases Nat.lt_or_ge s.wcnt.toNat 24 with hroom | hfull
  · rw [pushed_stored idx hroom, pushed_stored idx (hwcnt ▸ hroom)]
    exact ⟨congrArg (· ++ indexBits idx) hbs, congrArg nextCount hwcnt, hrest⟩
  · rw [pushed_full idx hfull, pushed_full idx (hwcnt ▸ hfull)]
    exact ⟨hbs, congrArg nextCount hwcnt, hrest⟩

/-- Which outcome a finalise has, and what it then records, depend on the store and the count alone. -/
theorem finalised_sameButPerr {s t : State} (h : SameButPerr s t) (mode : Mode) :
    SameButPerr (finalised mode s) (finalised mode t) := by
  obtain ⟨hbs, hwcnt, -, -, -, -, hgot, hexp⟩ := h
  cases hcount : validWordCount s.wcnt.toNat with
  | false =>
    rw [finalised_of_invalid hcount, finalised_of_invalid (hwcnt ▸ hcount)]
    exact ⟨hbs, hwcnt, rfl, rfl, rfl, rfl, hgot, hexp⟩
  | true =>
    cases mode with
    | lenient =>
      rw [finalised, finalisedLenient_of_valid hcount, finalisedLenient_of_valid (hwcnt ▸ hcount)]
      exact ⟨hbs, hwcnt, rfl, rfl, rfl, by simp [hwcnt], hgot, hexp⟩
    | strict =>
      by_cases hsum : checksumGot s.wcnt.toNat s.bs = checksumExpected s.wcnt.toNat s.bs
      · rw [finalised, finalisedStrict_of_match hcount hsum,
          finalisedStrict_of_match (hwcnt ▸ hcount) (hwcnt ▸ hbs ▸ hsum)]
        simp [SameButPerr, hbs, hwcnt]
      · rw [finalised, finalisedStrict_of_mismatch hcount hsum,
          finalisedStrict_of_mismatch (hwcnt ▸ hcount) (hwcnt ▸ hbs ▸ hsum)]
        simp [SameButPerr, hbs, hwcnt]

theorem accepted_sameButPerr {s t : State} (h : SameButPerr s t) (i : Instr) :
    SameButPerr (accepted i s) (accepted i t) := by
  cases i with
  | clr => exact ⟨rfl, rfl, rfl, rfl, rfl, rfl, rfl, rfl⟩
  | push idx => exact pushed_sameButPerr h idx
  | finS => exact finalised_sameButPerr h .strict
  | finL => exact finalised_sameButPerr h .lenient
  | stat => exact h
  | rdb n => exact h
  | rdl => exact h
  | rdc => exact h

theorem issued_sameButPerr {s t : State} (h : SameButPerr s t) (w : CommandWord) :
    SameButPerr (issued w s) (issued w t) := by
  have hrefusal := wordRefusal_sameButPerr h w
  cases ht : wordRefusal w t with
  | some e =>
    rw [issued_refused ht, issued_refused (hrefusal.trans ht)]
    exact h
  | none =>
    obtain ⟨i, hd, hi⟩ := issued_accepted ht
    rw [hi, issued_command hd, executed_accepted (refusal_of_wordRefusal (hrefusal.trans ht) hd)]
    exact accepted_sameButPerr h i

/-! ## The image of PERR in the responses -/

/-- The commands whose result is STATUS (30_encoding.md R76). -/
def AnswersStatus (i : Instr) : Prop := i = .stat ∨ i = .finS ∨ i = .finL

theorem resultData_of_answersStatus {i : Instr} (hi : AnswersStatus i) (s : State) :
    resultData i s = statusWord s := by
  obtain rfl | rfl | rfl := hi <;> rfl

/-- The other results do not see PERR. -/
theorem resultData_sameButPerr {s t : State} (h : SameButPerr s t) {i : Instr} (hi : ¬ AnswersStatus i) :
    resultData i s = resultData i t := by
  obtain ⟨hbs, hwcnt, -, -, -, holen, hgot, hexp⟩ := h
  cases i with
  | stat => exact absurd (.inl rfl) hi
  | finS => exact absurd (.inr (.inl rfl)) hi
  | finL => exact absurd (.inr (.inr rfl)) hi
  | clr => rfl
  | push idx => exact congrArg zext16 hwcnt
  | rdb n => simp only [resultData, hbs]
  | rdl => simp only [resultData, lenWord, hbs, holen]
  | rdc => simp only [resultData, csumWord, hgot, hexp]

/-- Where PERR is set, STATUS differs in bit 5 at most. -/
theorem statusWord_of_sameButPerr {s t : State} (h : SameButPerr s t) (hperr : s.perr = true) :
    statusWord s = statusWord t ||| 0x0020 := by
  obtain ⟨-, hwcnt, hphase, hmode, hcode, -, -, -⟩ := h
  rw [← statusWord_raise .illegal t]
  simp only [statusWord, raise_wcnt, raise_phase, raise_fmode, raise_fcode, raise_perr, hwcnt, hphase, hmode, hcode,
    hperr]

theorem AnswersStatus.ne_clr {i : Instr} (hi : AnswersStatus i) : i ≠ .clr := by
  obtain rfl | rfl | rfl := hi <;> nofun

/-- A word whose result is STATUS when it is accepted. -/
def WordAnswersStatus (w : CommandWord) : Prop :=
  decode w = .command .stat ∨ decode w = .command .finS ∨ decode w = .command .finL

theorem wordAnswersStatus_iff {w : CommandWord} {i : Instr} (hd : decode w = .command i) :
    WordAnswersStatus w ↔ AnswersStatus i := by simp [WordAnswersStatus, AnswersStatus, hd]

/-- The results of one command in two states, of which the first has PERR set: bit 5 of STATUS apart they agree. -/
theorem resultData_accepted_sameButPerr {s t : State} (h : SameButPerr s t) (hperr : s.perr = true) (i : Instr) :
    (AnswersStatus i → resultData i (accepted i s) = resultData i (accepted i t) ||| 0x0020) ∧
    (¬ AnswersStatus i → resultData i (accepted i s) = resultData i (accepted i t)) := by
  have hsame := accepted_sameButPerr h i
  refine ⟨fun hi => ?_, resultData_sameButPerr hsame⟩
  rw [resultData_of_answersStatus hi, resultData_of_answersStatus hi]
  exact statusWord_of_sameButPerr hsame ((accepted_perr i s).2 ⟨hperr, hi.ne_clr⟩)

/-- The responses of one word in two states, of which the first has PERR set. -/
theorem issued_rsp_sameButPerr {s t : State} (h : SameButPerr s t) (hperr : s.perr = true) (w : CommandWord) :
    ∃ ra rb, (issued w s).rsp = some ra ∧ (issued w t).rsp = some rb ∧ ra.err = rb.err ∧
      (rb.err = false → WordAnswersStatus w → ra.data = rb.data ||| 0x0020) ∧
      (rb.err = true ∨ ¬ WordAnswersStatus w → ra.data = rb.data) := by
  have hrefusal := wordRefusal_sameButPerr h w
  cases ht : wordRefusal w t with
  | some e =>
    rw [issued_refused ht, issued_refused (hrefusal.trans ht)]
    exact ⟨_, _, rfl, rfl, rfl, nofun, fun _ => rfl⟩
  | none =>
    obtain ⟨i, hd, hi⟩ := issued_accepted ht
    obtain ⟨hstatus, hother⟩ := resultData_accepted_sameButPerr h hperr i
    rw [hi, issued_command hd, executed_accepted (refusal_of_wordRefusal (hrefusal.trans ht) hd)]
    rw [wordAnswersStatus_iff hd]
    exact ⟨_, _, accepted_rsp_eq i s, accepted_rsp_eq i t, rfl, fun _ => hstatus,
      fun hr => hother (hr.resolve_left nofun)⟩

/-- Settles O53: the step raised an error, which is the refused state; it differs in PERR alone from the state
without the refused command, so that the next word leaves states and responses that do. -/
theorem refusalChangesOnlyPerr : Obligations.RefusalChangesOnlyPerr := by
  intro s t w rest d hin hstep hrsp
  have ht : t = { s with inputs := rest, perr := true, rsp := some ⟨true, d⟩ } := by
    rw [← stepped_of_step hstep, stepped_command hin] at hrsp ⊢
    obtain ⟨e, he, rfl⟩ := (issued_rsp_refused_iff w _ d).1 hrsp
    exact issued_refused he
  refine ⟨ht, fun w' more a b hrest ha hb => ?_⟩
  subst ht
  rw [← stepped_of_step ha, ← stepped_of_step hb, stepped_command hrest, stepped_command hrest]
  have hsame : SameButPerr { s with inputs := more, perr := true, rsp := some ⟨true, d⟩ } { s with inputs := more } :=
    ⟨rfl, rfl, rfl, rfl, rfl, rfl, rfl, rfl⟩
  exact ⟨issued_sameButPerr hsame w', issued_rsp_sameButPerr hsame rfl w'⟩

end Sys2Proof.Proofs
end

section
/-! PROOFS. The two classified outcomes (60_exceptions.md R170). -/

open Sys2Proof Sys2Proof.Machine

namespace Sys2Proof.Proofs

/-! ## What a finalise that ends in FAIL records -/

theorem finalised_fmode (mode : Mode) (s : State) : (finalised mode s).fmode = mode := by
  cases mode with
  | strict => obtain ⟨-, h⟩ | ⟨-, -, h⟩ | ⟨-, -, h⟩ := finalisedStrict_cases s <;> simp [finalised, h]
  | lenient => obtain ⟨-, h⟩ | ⟨-, h⟩ := finalisedLenient_cases s <;> simp [finalised, h]

theorem finalised_wcnt (mode : Mode) (s : State) : (finalised mode s).wcnt = s.wcnt := by
  cases mode with
  | strict => exact finalisedStrict_wcnt s
  | lenient => exact finalisedLenient_wcnt s

/-- A finalise with a valid count fails only by `FIN.S` on a mismatch of the values it latched. -/
theorem mismatch_of_finalised_fail {mode : Mode} {s : State} (hcount : validWordCount s.wcnt.toNat = true)
    (hfail : (finalised mode s).phase = .fail) :
    mode = .strict ∧ (finalised mode s).csgot ≠ (finalised mode s).csexp ∧
      (finalised mode s).fcode = .checksumMismatch := by
  cases mode with
  | lenient => simp [finalised, finalisedLenient_of_valid hcount] at hfail
  | strict =>
    by_cases hsum : checksumGot s.wcnt.toNat s.bs = checksumExpected s.wcnt.toNat s.bs
    · simp [finalised, finalisedStrict_of_match hcount hsum] at hfail
    · rw [finalised, finalisedStrict_of_mismatch hcount hsum]
      exact ⟨rfl, hsum, rfl⟩

/-- The failure class of a failed finalise tells whether the count was valid. -/
theorem code_of_finalised_fail {mode : Mode} {s : State} (hfail : (finalised mode s).phase = .fail) :
    ((finalised mode s).fcode.code = 1 ↔ validWordCount s.wcnt.toNat = false) ∧
    ((finalised mode s).fcode.code = 2 ↔ validWordCount s.wcnt.toNat = true) := by
  cases hcount : validWordCount s.wcnt.toNat with
  | false => simp [finalised_of_invalid hcount, FailCode.code]
  | true =>
    obtain ⟨-, -, hcode⟩ := mismatch_of_finalised_fail hcount hfail
    simp [hcode, FailCode.code]

/-! ## Only a finalise ends in FAIL -/

theorem exists_finalise_of_fail {w : CommandWord} {s : State} (hphase : s.phase = .accum)
    (hfail : (issued w s).phase = .fail) : ∃ mode, decode w = .command (finaliseInstr mode) := by
  cases hd : decode w with
  | illegal why => simp [issued_illegal hd, hphase] at hfail
  | command i =>
    cases i with
    | finS => exact ⟨.strict, rfl⟩
    | finL => exact ⟨.lenient, rfl⟩
    | clr => simp [issued_clr_phase hd] at hfail
    | push idx => simp [issued_push_phase_of_accum hd hphase] at hfail
    | stat => simp [issued_phase_of_readout_or_illegal, hd, hphase] at hfail
    | rdb n => simp [issued_phase_of_readout_or_illegal, hd, hphase] at hfail
    | rdl => simp [issued_phase_of_readout_or_illegal, hd, hphase] at hfail
    | rdc => simp [issued_phase_of_readout_or_illegal, hd, hphase] at hfail

/-- From ACCUM a word ends in FAIL in the two classified ways (60_exceptions.md R170). -/
theorem issued_fail_iff {w : CommandWord} {s : State} (hphase : s.phase = .accum) :
    (issued w s).phase = .fail ↔
      (decode w = .command .finS ∨ decode w = .command .finL) ∧ s.wcnt.toNat ∉ [12, 15, 18, 21, 24] ∨
      decode w = .command .finS ∧ s.wcnt.toNat ∈ [12, 15, 18, 21, 24] ∧ (issued w s).csgot ≠ (issued w s).csexp := by
  constructor
  · intro hfail
    obtain ⟨mode, hd⟩ := exists_finalise_of_fail hphase hfail
    by_cases hcount : s.wcnt.toNat ∈ [12, 15, 18, 21, 24]
    · rw [issued_finalise_of_accum hd hphase] at hfail ⊢
      obtain ⟨rfl, hsum, -⟩ := mismatch_of_finalised_fail ((validWordCount_iff_mem _).2 hcount) hfail
      exact .inr ⟨hd, hcount, hsum⟩
    · cases mode with
      | strict => exact .inl ⟨.inl hd, hcount⟩
      | lenient => exact .inl ⟨.inr hd, hcount⟩
  · rintro (⟨hd | hd, hcount⟩ | ⟨hd, hcount, hsum⟩)
    · exact (issued_finalise_of_invalid (mode := .strict) hd hphase hcount).left
    · exact (issued_finalise_of_invalid (mode := .lenient) hd hphase hcount).left
    · exact ((issued_finS_of_valid hd hphase hcount).left hsum).left

/-- Settles O56: a word that ends in FAIL is a finalise, so that the state is what `finalised` leaves and the response
its STATUS; mode, count and failure class are those of `finalised`. -/
theorem classifiedOutcomes : Obligations.ClassifiedOutcomes := by
  intro s t w rest hin hstep hphase
  obtain ⟨u, hu, huphase, huwcnt⟩ : ∃ u, stepped s = issued w u ∧ u.phase = .accum ∧ u.wcnt = s.wcnt :=
    ⟨_, stepped_command hin, hphase, rfl⟩
  rw [← stepped_of_step hstep, hu, ← huwcnt]
  refine ⟨issued_fail_iff huphase, fun hfail => ?_⟩
  obtain ⟨mode, hd⟩ := exists_finalise_of_fail huphase hfail
  rw [issued_finalise_of_accum hd huphase] at hfail ⊢
  rw [← validWordCount_eq_false_iff_notMem, ← validWordCount_iff_mem]
  refine ⟨rfl, (statusWord_wcnt _).trans (finalised_wcnt mode u), ?mode, code_of_finalised_fail hfail⟩
  case mode =>
    rw [respond_fmode, finalised_fmode, hd]
    cases mode <;> simp [finaliseInstr]

end Sys2Proof.Proofs
end

section
/-! PROOFS. Reset, and that it leaves what `CLR` leaves (70_reset_and_hazards.md R190). -/

open Sys2Proof Sys2Proof.Machine

namespace Sys2Proof.Proofs

theorem sameComponents_symm {s t : State} (h : SameComponents s t) : SameComponents t s := by
  obtain ⟨hbs, hwcnt, hphase, hfmode, hfcode, holen, hcsgot, hcsexp, hperr⟩ := h
  exact ⟨hbs.symm, hwcnt.symm, hphase.symm, hfmode.symm, hfcode.symm, holen.symm, hcsgot.symm, hcsexp.symm,
    hperr.symm⟩

/-- `CLR` leaves the components of the reset state, from every state (40_accumulate.md R91). -/
theorem sameComponents_reset_of_exec_clr {u v : State} (hexec : exec .clr u = .next v) :
    SameComponents v State.reset := by
  obtain ⟨-, hclr⟩ := clrRestoresTheResetState
  obtain ⟨-, hreset, -⟩ := hclr u
  exact hreset v hexec

/-- Settles O13: the step leaves the reset state with the rest of the queue, and the nine components of the reset
state are those `CLR` leaves. -/
theorem resetReachesTheResetState : Obligations.ResetReachesTheResetState := by
  intro s rest hin
  have hstep : step s = .next { State.reset with inputs := rest } := by rw [step_eq, stepped_reset hin]
  refine ⟨_, hstep, rfl, rfl, rfl, rfl, rfl, rfl, rfl, rfl, rfl, fun u v hexec => ?clr⟩
  case clr =>
    have hv : SameComponents v State.reset := sameComponents_reset_of_exec_clr hexec
    exact sameComponents_symm hv

end Sys2Proof.Proofs
end

section
/-! PROOFS. Decoding and encoding are inverse, and sample words of every format (30_encoding.md R71, R75). -/

open Sys2Proof Sys2Proof.Machine

namespace Sys2Proof.Proofs

/-- Settles O1: the two directions of the round trip, the two sums that stay below 2^16, and the constants. -/
theorem decodeInvertsEncode : Obligations.DecodeInvertsEncode :=
  ⟨decode_encode, decode_eq_command_iff, toNat_encode_push, toNat_encode_rdb, rfl, rfl, rfl, rfl, rfl, rfl⟩

/-- Settles O4: each legal sample is the word of its command, which decodes to it; the two illegal ones are
computed. -/
theorem sampleWordsDecode : Obligations.SampleWordsDecode :=
  ⟨decode_encode .stat, decode_encode .clr, decode_encode (.push 3), decode_encode (.push 2047),
    decode_encode .finS, decode_encode .finL, decode_encode (.rdb 32), decode_encode .rdl, decode_encode .rdc,
    by decide, by decide⟩

end Sys2Proof.Proofs
end

section
/-! PROOFS. What it takes for every step to keep a property of the components (20_memory.md R58): only `CLR` and
reset, and in an open window `PUSH` and the finalise commands, change a component other than PERR. -/

open Sys2Proof Sys2Proof.Machine

namespace Sys2Proof.Proofs

theorem sameButPerr_respond (d : DataWord) (s : State) : SameButPerr s (respond d s) :=
  ⟨rfl, rfl, rfl, rfl, rfl, rfl, rfl, rfl⟩

theorem sameButPerr_raise (e : ProtocolError) (s : State) : SameButPerr s (raise e s) :=
  ⟨rfl, rfl, rfl, rfl, rfl, rfl, rfl, rfl⟩

theorem sameButPerr_inputs (s : State) (q : List HostInput) : SameButPerr s { s with inputs := q } :=
  ⟨rfl, rfl, rfl, rfl, rfl, rfl, rfl, rfl⟩

theorem sameButPerr_clearAll (s : State) : SameButPerr State.reset (clearAll s) :=
  ⟨rfl, rfl, rfl, rfl, rfl, rfl, rfl, rfl⟩

section

variable {P : State → Prop} (hsame : ∀ {s t : State}, P s → SameButPerr s t → P t) (hreset : P State.reset)
  (hpush : ∀ {s : State}, P s → s.phase = .accum → ∀ idx, P (pushed idx s))
  (hfin : ∀ {s : State}, P s → s.phase = .accum → ∀ mode, P (finalised mode s))

include hsame hreset hpush hfin

/-- The property is kept by every accepted command, because a read-out changes no component. -/
theorem accepted_keeps {i : Instr} {s : State} (h : P s) (haccepted : refusal i s = none) : P (accepted i s) := by
  cases i with
  | stat => exact hsame h (sameButPerr_respond _ s)
  | rdb n => exact hsame h (sameButPerr_respond _ s)
  | rdl => exact hsame h (sameButPerr_respond _ s)
  | rdc => exact hsame h (sameButPerr_respond _ s)
  | clr => exact hsame (hsame hreset (sameButPerr_clearAll s)) (sameButPerr_respond _ _)
  | push idx => exact hsame (hpush h (by simpa [refusal] using haccepted) idx) (sameButPerr_respond _ _)
  | finS => exact hsame (hfin h (by simpa [refusal] using haccepted) .strict) (sameButPerr_respond _ _)
  | finL => exact hsame (hfin h (by simpa [refusal] using haccepted) .lenient) (sameButPerr_respond _ _)

/-- A command word is refused, which changes PERR alone, or is an accepted command. -/
theorem issued_keeps {s : State} (h : P s) (w : CommandWord) : P (issued w s) := by
  cases hr : wordRefusal w s with
  | some e =>
    rw [issued_refused hr]
    exact hsame h (sameButPerr_raise e s)
  | none =>
    obtain ⟨i, hd, hi⟩ := issued_accepted hr
    rw [hi]
    exact accepted_keeps hsame hreset hpush hfin h (refusal_of_wordRefusal hr hd)

/-- A step waits, resets, or performs a command word. -/
theorem step_keeps {s t : State} (h : P s) (hstep : step s = .next t) : P t := by
  rw [← stepped_of_step hstep]
  unfold stepped
  split
  next => exact h
  next rest _ => exact hsame hreset (sameButPerr_inputs _ rest)
  next w rest _ => exact issued_keeps hsame hreset hpush hfin (hsame h (sameButPerr_inputs s rest)) w

end

end Sys2Proof.Proofs
end

section
/-! PROOFS. The invariant of the state: reset meets it and every step keeps it (10_state.md R34). -/

open Sys2Proof Sys2Proof.Machine

namespace Sys2Proof.Proofs

/-- The invariant speaks of the components other than PERR only. -/
theorem stateInv_of_sameButPerr {s t : State} (hinv : StateInv s) (h : SameButPerr s t) : StateInv t := by
  cases s
  cases t
  obtain ⟨rfl, rfl, rfl, rfl, rfl, rfl, rfl, rfl⟩ := h
  exact ⟨hinv.length, hinv.codes, hinv.accum, hinv.ok, hinv.fail, hinv.width⟩

theorem stateInv_reset : StateInv State.reset where
  length := rfl
  codes := by decide
  accum := fun _ => ⟨rfl, rfl, rfl, rfl, rfl⟩
  ok := nofun
  fail := nofun
  width := by decide

/-- Item 2 of the invariant holds of every state, because the reserved codes have no constructor. -/
theorem codes_le (s : State) : s.phase.code.toNat ≤ 2 ∧ s.fcode.code.toNat ≤ 2 := by
  constructor
  · cases s.phase <;> decide
  · cases s.fcode <;> decide

/-! ## The latched values are CS(n) bits wide -/

theorem toNat_checksumGot_lt {n : Nat} (m : Memory) : (checksumGot n m).toNat < 2 ^ csBits n := by
  have hlen : (checksumSegment n m).length ≤ csBits n := by simp [checksumSegment]
  calc (checksumGot n m).toNat ≤ val (checksumSegment n m) := by
        rw [checksumGot, BitVec.toNat_ofNat]
        exact Nat.mod_le _ _
    _ < 2 ^ (checksumSegment n m).length := val_lt _
    _ ≤ 2 ^ csBits n := Nat.pow_le_pow_right (by decide) hlen

/-- CS(n) is at most 8 bits, a byte (00_scope.md R5). -/
theorem csBits_le {n : Nat} (h : validWordCount n = true) : csBits n ≤ 8 := by
  have hle := le_of_validWordCount h
  rw [csBits]
  omega

theorem toNat_checksumExpected_lt {n : Nat} (h : validWordCount n = true) (m : Memory) :
    (checksumExpected n m).toNat < 2 ^ csBits n := by
  have hcs := csBits_le h
  have hbyte := (Sha256.digestByte0 (entropyBytes n m)).isLt
  rw [checksumExpected, BitVec.toNat_ushiftRight, Nat.shiftRight_eq_div_pow,
    Nat.div_lt_iff_lt_mul (Nat.two_pow_pos _), ← Nat.pow_add]
  rwa [Nat.add_sub_cancel' hcs]

theorem toNat_strictOlen {n : Nat} (h : validWordCount n = true) : (strictOlen n).toNat = entBits n / 8 := by
  have hle := le_of_validWordCount h
  simp only [strictOlen, entBits, BitVec.toNat_ofNat]
  omega

/-! ## The commands keep the invariant -/

/-- An open window in which a push has changed BS and WCNT as item 1 asks. -/
theorem stateInv_pushed {s : State} (hinv : StateInv s) (hphase : s.phase = .accum) (idx : WordIndex) :
    StateInv (pushed idx s) := by
  obtain ⟨hmode, hcode, holen, hgot, hexp⟩ := hinv.accum hphase
  refine ⟨?length, codes_le _, fun _ => ?accum, ?ok, ?fail, ?width⟩
  case length =>
    have hlen := hinv.length
    simp only [pushed_wcnt, toNat_nextCount, Config.wmax] at hlen ⊢
    rcases Nat.lt_or_ge s.wcnt.toNat 24 with hroom | hfull
    · rw [pushed_bs_stored idx s hroom, List.length_append, length_indexBits]
      omega
    · rw [pushed_bs_full idx s hfull]
      omega
  case accum => simp [hmode, hcode, holen, hgot, hexp]
  case ok => simp [hphase]
  case fail => simp [hphase]
  case width => simp [hgot, hexp]

theorem stateInv_failCount {s : State} (hinv : StateInv s) (hphase : s.phase = .accum)
    (hcount : validWordCount s.wcnt.toNat = false) (mode : Mode) : StateInv (failCount mode s) := by
  obtain ⟨-, -, -, hgot, hexp⟩ := hinv.accum hphase
  refine ⟨hinv.length, codes_le _, nofun, nofun, fun _ => ?fail, fun hvalid => ?width⟩
  case fail => exact ⟨rfl, .inl rfl, fun _ => ⟨hcount, hgot, hexp⟩, nofun⟩
  case width => exact Bool.noConfusion (hcount.symm.trans hvalid)

theorem stateInv_finalisedLenient {s : State} (hinv : StateInv s) (hphase : s.phase = .accum) :
    StateInv (finalisedLenient s) := by
  obtain ⟨hcount, h⟩ | ⟨hcount, h⟩ := finalisedLenient_cases s <;> rw [h]
  · exact stateInv_failCount hinv hphase hcount .lenient
  · obtain ⟨-, -, -, hgot, hexp⟩ := hinv.accum hphase
    exact ⟨hinv.length, codes_le _, nofun,
      fun _ => ⟨rfl, hcount, nofun, fun _ => ⟨toNat_lenientOlen hcount, hgot, hexp⟩⟩, nofun, hinv.width⟩

theorem stateInv_finalisedStrict {s : State} (hinv : StateInv s) (hphase : s.phase = .accum) :
    StateInv (finalisedStrict s) := by
  obtain ⟨hcount, h⟩ | ⟨hcount, hsum, h⟩ | ⟨hcount, hsum, h⟩ := finalisedStrict_cases s <;> rw [h]
  · exact stateInv_failCount hinv hphase hcount .strict
  · exact ⟨hinv.length, codes_le _, nofun,
      fun _ => ⟨rfl, hcount, fun _ => ⟨toNat_strictOlen hcount, hsum⟩, nofun⟩, nofun,
      fun _ => ⟨toNat_checksumGot_lt s.bs, toNat_checksumExpected_lt hcount s.bs⟩⟩
  · exact ⟨hinv.length, codes_le _, nofun, nofun, fun _ => ⟨rfl, .inr rfl, nofun, fun _ => ⟨rfl, hcount, hsum⟩⟩,
      fun _ => ⟨toNat_checksumGot_lt s.bs, toNat_checksumExpected_lt hcount s.bs⟩⟩

theorem stateInv_finalised {s : State} (hinv : StateInv s) (hphase : s.phase = .accum) (mode : Mode) :
    StateInv (finalised mode s) := by
  cases mode with
  | strict => exact stateInv_finalisedStrict hinv hphase
  | lenient => exact stateInv_finalisedLenient hinv hphase

/-- Settles O58: reset meets the invariant, and `PUSH` and the finalise commands keep it in an open window. -/
theorem stepKeepsInvariant : Obligations.StepKeepsInvariant := fun _ _ hinv hstep =>
  step_keeps stateInv_of_sameButPerr stateInv_reset stateInv_pushed stateInv_finalised hinv hstep

/-- Settles O60: item 1 of the invariant gives the form of the store; OLEN is 0 outside OK, and in OK every readable
address is backed. -/
theorem readableBytesAreBacked : Obligations.ReadableBytesAreBacked := by
  intro s hinv
  have hlen := hinv.length
  have hbound : s.olen.toNat ≤ byteCount s.bs.length ∧ s.olen.toNat ≤ 33 := by
    by_cases hphase : s.phase = .ok
    · exact ⟨olen_le_byteCount hinv hphase, olen_le hinv hphase⟩
    · simp [olen_of_not_ok hinv hphase]
  obtain ⟨hbytes, hcap⟩ := hbound
  refine ⟨(Memory.wf_iff _).2 ?form, hbytes, hcap, fun n hn => ?backed⟩
  case form =>
    simp only [Config.wmax] at hlen
    omega
  case backed => exact decide_eq_true (hn.trans_le hbytes)

end Sys2Proof.Proofs
end

section
/-! PROOFS. What OLEN, CSGOT and CSEXP hold in every situation is kept by every step (10_state.md R27 to R29). -/

open Sys2Proof Sys2Proof.Machine

namespace Sys2Proof.Proofs

/-- What is latched does not concern PERR. -/
theorem latched_of_sameButPerr {s t : State} (hl : Latched s) (h : SameButPerr s t) : Latched t := by
  cases s
  cases t
  obtain ⟨rfl, rfl, rfl, rfl, rfl, rfl, rfl, rfl⟩ := h
  exact ⟨hl.gotHashed, hl.expHashed, hl.elsewhere, hl.olenStrict, hl.olenLenient, hl.olenElsewhere⟩

/-- An open window has hashed nothing yet. -/
theorem not_hashed_of_accum {s : State} (hphase : s.phase = .accum) : ¬ Hashed s := fun ⟨hne, _⟩ => hne hphase

/-- In an open window nothing is latched and nothing is readable. -/
theorem latched_iff_of_accum {s : State} (hphase : s.phase = .accum) :
    Latched s ↔ (s.csgot = 0 ∧ s.csexp = 0) ∧ s.olen = 0 := by
  have hnot := not_hashed_of_accum hphase
  constructor
  · exact fun hl => ⟨hl.elsewhere hnot, hl.olenElsewhere (by simp [hphase])⟩
  · rintro ⟨hsum, holen⟩
    exact ⟨fun h => absurd h hnot, fun h => absurd h hnot, fun _ => hsum, by simp [hphase], by simp [hphase],
      fun _ => holen⟩

theorem latched_reset : Latched State.reset := (latched_iff_of_accum rfl).2 ⟨⟨rfl, rfl⟩, rfl⟩

theorem latched_pushed {s : State} (hl : Latched s) (hphase : s.phase = .accum) (idx : WordIndex) :
    Latched (pushed idx s) := by
  rw [latched_iff_of_accum hphase] at hl
  rw [latched_iff_of_accum (by simp [hphase])]
  simpa using hl

/-- `InvalidWordCount` is not a hashed outcome: the count is not valid. -/
theorem latched_failCount {s : State} (hl : Latched s) (hphase : s.phase = .accum)
    (hcount : validWordCount s.wcnt.toNat = false) (mode : Mode) : Latched (failCount mode s) := by
  have hnot : ¬ Hashed (failCount mode s) := fun ⟨_, _, hvalid⟩ => Bool.noConfusion (hcount.symm.trans hvalid)
  exact ⟨fun h => absurd h hnot, fun h => absurd h hnot, fun _ => hl.elsewhere (not_hashed_of_accum hphase), nofun,
    nofun, fun _ => rfl⟩

/-- A lenient success is not a hashed outcome: the mode is not strict. -/
theorem latched_finalisedLenient {s : State} (hl : Latched s) (hphase : s.phase = .accum) :
    Latched (finalisedLenient s) := by
  obtain ⟨hcount, h⟩ | ⟨-, h⟩ := finalisedLenient_cases s <;> rw [h]
  · exact latched_failCount hl hphase hcount .lenient
  · have hnot : ∀ len, ¬ Hashed (succeed .lenient len s) := fun _ ⟨_, hmode, _⟩ => Mode.noConfusion hmode
    exact ⟨fun h => absurd h (hnot _), fun h => absurd h (hnot _),
      fun _ => hl.elsewhere (not_hashed_of_accum hphase), nofun, fun _ _ => rfl, fun h => absurd rfl h⟩

/-- With a valid count `FIN.S` ends in a hashed state on match and on mismatch, with both values latched. -/
theorem latched_finalisedStrict {s : State} (hl : Latched s) (hphase : s.phase = .accum) :
    Latched (finalisedStrict s) := by
  obtain ⟨hcount, h⟩ | ⟨hcount, -, h⟩ | ⟨hcount, -, h⟩ := finalisedStrict_cases s <;> rw [h]
  · exact latched_failCount hl hphase hcount .strict
  · exact ⟨fun _ => rfl, fun _ => rfl, fun hnot => absurd ⟨nofun, rfl, hcount⟩ hnot, fun _ _ => rfl, nofun,
      fun hne => absurd rfl hne⟩
  · exact ⟨fun _ => rfl, fun _ => rfl, fun hnot => absurd ⟨nofun, rfl, hcount⟩ hnot, nofun, nofun, fun _ => rfl⟩

theorem latched_finalised {s : State} (hl : Latched s) (hphase : s.phase = .accum) (mode : Mode) :
    Latched (finalised mode s) := by
  cases mode with
  | strict => exact latched_finalisedStrict hl hphase
  | lenient => exact latched_finalisedLenient hl hphase

/-- Settles O59: reset latches nothing, and `PUSH` and the finalise commands keep in an open window what the values
hold. -/
theorem stepKeepsLatchedValues : Obligations.StepKeepsLatchedValues := fun _ _ hl hstep =>
  step_keeps latched_of_sameButPerr latched_reset latched_pushed latched_finalised hl hstep

/-- Settles O57: the empty open window meets both invariants. -/
theorem resetMeetsInvariants : Obligations.ResetMeetsInvariants := ⟨stateInv_reset, latched_reset⟩

end Sys2Proof.Proofs
end

section
/-! PROOFS. The 8-bit view of data written 11 bits at a time (20_memory.md R54). -/

open Sys2Proof Sys2Proof.Machine

namespace Sys2Proof.Proofs

/-! ## Bytes of a concatenation -/

theorem packByte_append_left {a : BitSeq} {i : Nat} (h : 8 * i + 8 ≤ a.length) (s : BitSeq) :
    packByte (a ++ s) i = packByte a i := by
  refine packByte_congr fun j hj => ?_
  rw [List.getD_append _ _ _ _ (by omega)]

theorem packByte_append_right {a : BitSeq} {k : Nat} (h : a.length = 8 * k) (s : BitSeq) (i : Nat) :
    packByte (a ++ s) (k + i) = packByte s i := by
  refine packByte_congr fun j hj => ?_
  rw [List.getD_append_right _ _ _ _ (by omega)]
  congr 1
  omega

/-! ## Bytes of a phrase -/

/-- The bit of a byte of the view that stands at bit `10 - r` of index `k` (20_memory.md R54). -/
theorem getLsbD_outRead_phraseBits {idxs : List WordIndex} {k : Nat} {idx : WordIndex} (hk : idxs[k]? = some idx)
    {n j r : Nat} (hj : j < 8) (hr : r < 11) (hp : 8 * n + j = 11 * k + r) :
    (Memory.outRead (phraseBits idxs) n).getLsbD (7 - j) = idx.getLsbD (10 - r) := by
  have hdiv : (11 * k + r) / 11 = k := by omega
  have hmod : (11 * k + r) % 11 = r := by omega
  rw [getLsbD_outRead _ _ _ hj, List.getD_eq_getElem?_getD, hp, getElem?_phraseBits, hdiv, hmod, hk]
  rfl

section

variable {idxs : List WordIndex}

/-- Byte 0 is the eight high bits of index 0. -/
theorem outRead_phraseBits_zero {i0 : WordIndex} (h0 : idxs[0]? = some i0) :
    Memory.outRead (phraseBits idxs) 0 = i0.extractLsb' 3 8 := by
  refine BitVec.eq_of_getLsbD_eq fun i hi => ?_
  obtain ⟨j, rfl, hj⟩ : ∃ j, i = 7 - j ∧ j < 8 := ⟨7 - i, by omega, by omega⟩
  rw [getLsbD_outRead_phraseBits h0 (r := j) hj (by omega) (by omega)]
  simp only [BitVec.getLsbD_extractLsb', hi, decide_true, Bool.true_and]
  congr 1
  omega

/-- A byte that starts in one index and ends in the next: the low `p` bits of the one, the high `q` of the other. -/
theorem getLsbD_outRead_phraseBits_span {k n p q : Nat} {a b : WordIndex} (ha : idxs[k]? = some a)
    (hb : idxs[k + 1]? = some b) (hpq : p + q = 8) (hn : 8 * n + p = 11 * (k + 1)) {i : Nat} (hi : i < 8) :
    (Memory.outRead (phraseBits idxs) n).getLsbD i = (a.extractLsb' 0 p ++ b.extractLsb' (11 - q) q).getLsbD i := by
  obtain ⟨j, rfl, hj⟩ : ∃ j, i = 7 - j ∧ j < 8 := ⟨7 - i, by omega, by omega⟩
  rw [BitVec.getLsbD_append]
  by_cases hlow : 7 - j < q
  · rw [getLsbD_outRead_phraseBits hb (r := j - p) hj (by omega) (by omega), if_pos hlow]
    simp only [BitVec.getLsbD_extractLsb', hlow, decide_true, Bool.true_and]
    congr 1
    omega
  · have hhigh : 7 - j - q < p := by omega
    rw [getLsbD_outRead_phraseBits ha (r := 11 - p + j) hj (by omega) (by omega), if_neg hlow]
    simp only [BitVec.getLsbD_extractLsb', hhigh, decide_true, Bool.true_and]
    congr 1
    omega

end

/-- Settles O21: every bit is placed by `getLsbD_outRead_phraseBits`, from which the first three bytes are read off;
eight indices are eleven whole bytes. -/
theorem mixedWidthRead : Obligations.MixedWidthRead := by
  refine ⟨fun idxs n j idx hj hidx => ?bit, fun i0 i1 i2 more => ⟨outRead_phraseBits_zero rfl, ?one, ?two⟩,
    fun front back n hfront => ?period, fun n => by omega, fun k => by omega⟩
  case bit => exact getLsbD_outRead_phraseBits hidx hj (by omega) (by omega)
  case one => exact BitVec.eq_of_getLsbD_eq fun _ => getLsbD_outRead_phraseBits_span (k := 0) rfl rfl rfl rfl
  case two => exact BitVec.eq_of_getLsbD_eq fun _ => getLsbD_outRead_phraseBits_span (k := 1) rfl rfl rfl rfl
  case period =>
    rw [phraseBits_append]
    exact packByte_append_right (by simp [hfront]) _ n

end Sys2Proof.Proofs
end

section
/-! PROOFS. The accumulator view: the complete bytes of the store, and the bits that wait for the next byte
(10_state.md R32). -/

open Sys2Proof Sys2Proof.Machine

namespace Sys2Proof.Proofs

/-! ## Packing a concatenation -/

/-- Behind whole bytes the packing starts afresh. -/
theorem pack8_append {a : BitSeq} (ha : a.length % 8 = 0) (s : BitSeq) : pack8 (a ++ s) = pack8 a ++ pack8 s := by
  have hlen : a.length = 8 * byteCount a.length := by
    rw [byteCount]
    omega
  have hcount : byteCount (a ++ s).length = byteCount a.length + byteCount s.length := by
    simp only [List.length_append, byteCount]
    omega
  rw [pack8, hcount, List.range_add, List.map_append, List.map_map]
  congr 1
  · refine List.map_congr_left fun i hi => packByte_append_left ?_ s
    rw [List.mem_range] at hi
    omega
  · exact List.map_congr_left fun i _ => packByte_append_right hlen s i

/-- Up to eight bits pack to one byte, zeros after them (00_scope.md R11). -/
theorem pack8_of_le_eight {s : BitSeq} (hpos : 0 < s.length) (hle : s.length ≤ 8) :
    pack8 s = [BitVec.ofNat 8 (val s <<< (8 - s.length))] := by
  have hcount : byteCount s.length = 1 := by
    rw [byteCount]
    omega
  have hpad : (List.range 8).map (fun j => s.getD (8 * 0 + j) false) = s ++ List.replicate (8 - s.length) false := by
    refine List.ext_getElem (by simp; omega) fun j hj hj' => ?_
    simp only [List.getElem_map, List.getElem_range, Nat.mul_zero, Nat.zero_add, List.getElem_append,
      List.getElem_replicate]
    split
    next h => exact List.getD_eq_getElem _ _ h
    next h => exact List.getD_eq_default _ _ (Nat.not_lt.1 h)
  have hzero : ∀ k, val (List.replicate k false) = 0 := fun k => by
    induction k with
    | zero => rfl
    | succ k ih => simp [List.replicate_succ, ih]
  rw [pack8, hcount, List.range_one, List.map_singleton, packByte, hpad, val_append, hzero, List.length_replicate,
    Nat.shiftLeft_eq, Nat.add_zero]

/-! ## The two parts of a store -/

/-- The bits of the store that make up whole bytes. -/
def completeBits (m : Memory) : BitSeq := m.take (8 * m.nbytes)

/-- The bits of the store behind its last whole byte. -/
def waitingBits (m : Memory) : BitSeq := m.drop (8 * m.nbytes)

@[simp] theorem completeBits_append_waitingBits (m : Memory) : completeBits m ++ waitingBits m = m :=
  List.take_append_drop _ _

@[simp] theorem length_completeBits (m : Memory) : (completeBits m).length = 8 * m.nbytes := by
  rw [completeBits, List.length_take, Memory.nbytes]
  omega

@[simp] theorem length_waitingBits (m : Memory) : (waitingBits m).length = m.length % 8 := by
  rw [waitingBits, List.length_drop, Memory.nbytes]
  omega

/-- The registers of the view, from the two parts of the store (10_state.md R32). -/
theorem accumulator_eq (m : Memory) :
    m.accumulator = ⟨pack8 (completeBits m), val (waitingBits m), m.length % 8⟩ := by
  have hcount : byteCount (completeBits m).length = m.nbytes := by
    rw [length_completeBits, byteCount]
    omega
  have hbuf : (List.range m.nbytes).map (fun i => BitVec.ofNat 8 (val ((m.drop (8 * i)).take 8))) =
      pack8 (completeBits m) := by
    rw [pack8, hcount]
    refine List.map_congr_left fun i hi => ?_
    rw [List.mem_range] at hi
    have hfit : 8 * i + 8 ≤ 8 * m.nbytes := by omega
    rw [completeBits, packByte_take _ _ _ hfit, packByte_eq_val]
    rw [Memory.nbytes] at hfit
    omega
  rw [Memory.accumulator, hbuf]
  rfl

@[simp] theorem accumulator_buf (m : Memory) : m.accumulator.buf = pack8 (completeBits m) := by rw [accumulator_eq]
@[simp] theorem accumulator_acc (m : Memory) : m.accumulator.acc = val (waitingBits m) := by rw [accumulator_eq]
@[simp] theorem accumulator_nb (m : Memory) : m.accumulator.nb = m.length % 8 := rfl

/-- The padded trailing byte is the packing of the bits that wait. -/
theorem trailing_accumulator (m : Memory) : m.accumulator.trailing = pack8 (waitingBits m) := by
  have hlen := length_waitingBits m
  rw [Accumulator.trailing, accumulator_nb, accumulator_acc]
  split
  next hpos => rw [pack8_of_le_eight (by omega) (by omega), hlen]
  next hzero => rw [List.length_eq_zero_iff.1 (by omega : (waitingBits m).length = 0), pack8_nil]

/-- `pack8(BS)` is the complete bytes and the padded trailing byte. -/
theorem pack8_eq_buf_append_trailing (m : Memory) : pack8 m = m.accumulator.buf ++ m.accumulator.trailing := by
  rw [trailing_accumulator, accumulator_buf, ← pack8_append (by simp), completeBits_append_waitingBits]

/-- A sequence is the bits of the number it spells, most significant first (00_scope.md R9). -/
theorem map_testBit_val (s : BitSeq) :
    (List.range s.length).map (fun j => (val s).testBit (s.length - 1 - j)) = s := by
  refine List.ext_getElem (by simp) fun j _ hj => ?_
  have hback : s.length - 1 - (s.length - 1 - j) = j := by omega
  rw [List.getElem_map, List.getElem_range, testBit_val, if_pos (by omega), hback, List.getD_eq_getElem _ _ hj]

/-- Settles O22: the buffer packs the complete bits and the accumulator spells the waiting ones. -/
theorem accumulatorViewSpellsTheBitString : Obligations.AccumulatorViewSpellsTheBitString := by
  intro m
  refine ⟨length_accumulator_buf m, rfl, ?width, ?spell, pack8_eq_buf_append_trailing m⟩
  case width =>
    have hlt := val_lt (waitingBits m)
    rwa [length_waitingBits] at hlt
  case spell =>
    have hwait := map_testBit_val (waitingBits m)
    rw [length_waitingBits] at hwait
    rw [accumulator_buf, accumulator_acc, accumulator_nb, flatMap_bits_pack8 _ (by simp), hwait,
      completeBits_append_waitingBits]

end Sys2Proof.Proofs
end

section
/-! PROOFS. The streaming form computes the accumulator view (40_accumulate.md R94). -/

open Sys2Proof Sys2Proof.Machine

namespace Sys2Proof.Proofs

/-- The view of a store whose front is whole bytes: they are in the buffer, and the view of the rest goes on. -/
theorem accumulator_append {a : BitSeq} (ha : a.length % 8 = 0) (s : BitSeq) :
    Memory.accumulator (a ++ s) =
      ⟨pack8 a ++ (Memory.accumulator s).buf, (Memory.accumulator s).acc, (Memory.accumulator s).nb⟩ := by
  have hsplit : 8 * Memory.nbytes (a ++ s) = a.length + 8 * Memory.nbytes s := by
    simp only [Memory.nbytes, List.length_append]
    omega
  have hcomplete : completeBits (a ++ s) = a ++ completeBits s := by
    rw [completeBits, hsplit, List.take_length_add_append]
    rfl
  have hwaiting : waitingBits (a ++ s) = waitingBits s := by
    rw [waitingBits, hsplit, List.drop_length_add_append]
    rfl
  have hnb : (a ++ s).length % 8 = s.length % 8 := by
    rw [List.length_append]
    omega
  rw [accumulator_eq, accumulator_eq s, hcomplete, hwaiting, hnb, pack8_append ha]

/-- Fewer than eight bits all wait. -/
theorem accumulator_of_lt_eight {s : BitSeq} (h : s.length < 8) : Memory.accumulator s = ⟨[], val s, s.length⟩ := by
  have hbytes : Memory.nbytes s = 0 := by
    rw [Memory.nbytes]
    omega
  rw [accumulator_eq, completeBits, waitingBits, hbytes, Nat.mod_eq_of_lt h, Nat.mul_zero, List.take_zero,
    List.drop_zero, pack8_nil]

/-- One turn of the loop: the leading eight bits as a byte, and the rest. -/
theorem val_append_byte {b r : BitSeq} (hb : b.length = 8) :
    BitVec.ofNat 8 ((val (b ++ r) >>> r.length) &&& 0xFF) = BitVec.ofNat 8 (val b) ∧
      val (b ++ r) &&& ((1 <<< r.length) - 1) = val r := by
  have hlt := val_lt r
  have hbyte := val_lt b
  rw [hb] at hbyte
  have hdiv : val (b ++ r) >>> r.length = val b := by
    rw [val_append, Nat.shiftRight_eq_div_pow, Nat.mul_comm, Nat.mul_add_div (Nat.two_pow_pos _), Nat.div_eq_of_lt hlt,
      Nat.add_zero]
  constructor
  · rw [hdiv, Nat.and_two_pow_sub_one_of_lt_two_pow (n := 8) hbyte]
  · rw [Nat.one_shiftLeft, Nat.and_two_pow_sub_one_eq_mod, val_append, Nat.mul_add_mod_self_right,
      Nat.mod_eq_of_lt hlt]

/-- The while loop moves the whole bytes of the bits it is given to the buffer and leaves the view of the rest. -/
theorem drain_val (k : Nat) (buf : List Byte) (s : BitSeq) (h : s.length < 8 * (k + 1)) :
    drain k buf (val s) s.length =
      ⟨buf ++ (Memory.accumulator s).buf, (Memory.accumulator s).acc, (Memory.accumulator s).nb⟩ := by
  induction k generalizing buf s with
  | zero => simp [drain, accumulator_of_lt_eight h]
  | succ k ih =>
    by_cases hlong : 8 ≤ s.length
    · obtain ⟨b, r, rfl, hb⟩ : ∃ b r, s = b ++ r ∧ b.length = 8 :=
        ⟨s.take 8, s.drop 8, (List.take_append_drop 8 s).symm, by simp [hlong]⟩
      obtain ⟨hbyte, hrest⟩ := val_append_byte (r := r) hb
      have hlen : (b ++ r).length - 8 = r.length := by simp [hb]
      have hpack : pack8 b = [BitVec.ofNat 8 (val b)] := by
        rw [pack8_of_le_eight (by omega) (by omega), hb]
        rfl
      rw [drain, if_pos hlong, hlen, hbyte, hrest, ih _ r (by simp [hb] at h; omega), accumulator_append (by simp [hb]),
        hpack, List.append_assoc]
    · rw [drain, if_neg hlong, accumulator_of_lt_eight (by omega), List.append_nil]

/-- A push in the streaming form gives the view of the store after the push. -/
theorem push_accumulator (m : Memory) (idx : WordIndex) : m.accumulator.push idx = (m.append idx).accumulator := by
  have hval : (val (waitingBits m) <<< 11) ||| idx.toNat = val (waitingBits m ++ indexBits idx) := by
    rw [← Nat.shiftLeft_add_eq_or_of_lt idx.isLt, Nat.shiftLeft_eq, val_append, length_indexBits, indexBits,
      val_bitsMsb]
  have hlen : m.length % 8 + 11 = (waitingBits m ++ indexBits idx).length := by simp
  rw [Accumulator.push, accumulator_acc, accumulator_nb, accumulator_buf, hval, hlen, drain_val _ _ _ (by omega),
    ← accumulator_append (by simp), ← List.append_assoc, completeBits_append_waitingBits]
  rfl

/-- The pushes of a phrase, one after the other, behind any store. -/
theorem foldl_push_accumulator (idxs : List WordIndex) (m : Memory) :
    idxs.foldl Accumulator.push m.accumulator = Memory.accumulator (m ++ phraseBits idxs) := by
  induction idxs generalizing m with
  | nil => rw [phraseBits_eq, List.flatMap_nil, List.append_nil, List.foldl_nil]
  | cons idx idxs ih =>
    rw [List.foldl_cons, push_accumulator, ih, Memory.append, List.append_assoc]
    rfl

/-- At 12, 15, 18 and 21 words the bits that wait are the checksum segment (40_accumulate.md R94). -/
theorem waitingBits_eq_checksumSegment {n : Nat} (hn : n ∈ [12, 15, 18, 21]) {m : Memory} (hm : m.length = 11 * n) :
    m.length % 8 = csBits n ∧ waitingBits m = checksumSegment n m := by
  have hcounts : ∀ n ∈ [12, 15, 18, 21], 11 * n % 8 = csBits n ∧ 8 * (11 * n / 8) = entBits n := by decide
  have hcount : m.length % 8 = csBits n ∧ 8 * m.nbytes = entBits n := by
    rw [Memory.nbytes, hm]
    exact hcounts n hn
  obtain ⟨hnb, hbytes⟩ := hcount
  have hlen := length_waitingBits m
  rw [hnb, waitingBits, hbytes] at hlen
  refine ⟨hnb, ?_⟩
  rw [waitingBits, checksumSegment, hbytes, List.take_of_length_le hlen.le]

/-- Settles O23: a push of the streaming form gives the view of the extended store, so by induction the pushes of a
phrase do; the checksum segment is what waits, or at 24 words the last byte. -/
theorem streamingFormAgrees : Obligations.StreamingFormAgrees := by
  refine ⟨fun m idx => ⟨(push_accumulator m idx).symm, ?count⟩, fun idxs => ?phrase, pack8_eq_buf_append_trailing,
    fun m n hn hm => ?segment, fun m hm => ?full⟩
  case count =>
    rw [push_accumulator, accumulator_nb, accumulator_nb, Memory.length_append]
    omega
  case phrase =>
    have hfold : idxs.foldl Accumulator.push ⟨[], 0, 0⟩ = Memory.accumulator (phraseBits idxs) :=
      foldl_push_accumulator idxs []
    rw [hfold, length_accumulator_buf, accumulator_nb, length_phraseBits]
    exact ⟨rfl, rfl, rfl⟩
  case segment =>
    obtain ⟨hnb, hwait⟩ := waitingBits_eq_checksumSegment hn hm
    rw [accumulator_acc, hwait]
    exact ⟨hnb, rfl⟩
  case full =>
    have hbytes : m.nbytes = 33 := by rw [Memory.nbytes, hm]
    refine ⟨by rw [accumulator_nb, hm], ?_⟩
    rw [Memory.accumulator, hbytes]
    rfl

end Sys2Proof.Proofs
end

section
/-! PROOFS. The split of a phrase of a valid word count into its entropy and its checksum segment
(00_scope.md R5, 41_finalize.md R114). -/

open Sys2Proof Sys2Proof.Machine

namespace Sys2Proof.Proofs

theorem validWordCount_iff (n : Nat) :
    validWordCount n = true ↔ n = 12 ∨ n = 15 ∨ n = 18 ∨ n = 21 ∨ n = 24 := by
  simp [validWordCount_iff_mem]

/-- The two segments make up the phrase, and the entropy segment is whole bytes. -/
theorem segments_of_valid {n : Nat} (h : validWordCount n = true) :
    3 * entBits n = 32 * n ∧ 3 * csBits n = n ∧ entBits n + csBits n = 11 * n ∧ entBits n % 8 = 0 := by
  simp only [entBits, csBits]
  obtain rfl | rfl | rfl | rfl | rfl := (validWordCount_iff n).1 h <;> decide

/-- Settles O24: the valid counts are multiples of three from 12 to 24, and the table is computed. -/
theorem segmentLengths : Obligations.SegmentLengths :=
  ⟨validWordCount_iff, fun _ => segments_of_valid, by decide, by decide⟩

section

variable {n : Nat} {m : Memory} (hcount : validWordCount n = true) (hlen : m.length = 11 * n)

include hcount

/-- Shifting the trailing byte back gives CSGOT, because CSGOT has CS(n) bits. -/
theorem shiftLeft_checksumGot_ushiftRight (m : Memory) :
    (checksumGot n m <<< (8 - csBits n)) >>> (8 - csBits n) = checksumGot n m := by
  have hcs := csBits_le hcount
  have hlt : (checksumGot n m).toNat * 2 ^ (8 - csBits n) < 2 ^ 8 := by
    calc (checksumGot n m).toNat * 2 ^ (8 - csBits n) < 2 ^ csBits n * 2 ^ (8 - csBits n) :=
          Nat.mul_lt_mul_of_pos_right (toNat_checksumGot_lt m) (Nat.two_pow_pos _)
      _ = 2 ^ 8 := by rw [← Nat.pow_add, Nat.add_sub_cancel' hcs]
  apply BitVec.eq_of_toNat_eq
  rw [BitVec.toNat_ushiftRight, BitVec.toNat_shiftLeft, Nat.shiftLeft_eq, Nat.mod_eq_of_lt hlt,
    Nat.shiftRight_eq_div_pow, Nat.mul_div_cancel _ (Nat.two_pow_pos _)]

include hlen

theorem length_take_entBits : (m.take (entBits n)).length = 8 * (entBits n / 8) := by
  obtain ⟨-, -, hsum, hbytes⟩ := segments_of_valid hcount
  rw [List.length_take]
  omega

/-- Behind the entropy segment there is the checksum segment and nothing else. -/
theorem checksumSegment_eq_drop : checksumSegment n m = m.drop (entBits n) := by
  obtain ⟨-, -, hsum, -⟩ := segments_of_valid hcount
  rw [checksumSegment, List.take_of_length_le]
  rw [List.length_drop]
  omega

theorem length_checksumSegment : (checksumSegment n m).length = csBits n := by
  obtain ⟨-, -, hsum, -⟩ := segments_of_valid hcount
  rw [checksumSegment_eq_drop hcount hlen, List.length_drop]
  omega

theorem take_append_checksumSegment : m.take (entBits n) ++ checksumSegment n m = m := by
  rw [checksumSegment_eq_drop hcount hlen, List.take_append_drop]

/-- The Entropy Buffer is read through OUT (41_finalize.md R114). -/
theorem entropyBytes_eq_map_outRead : entropyBytes n m = (List.range (entBits n / 8)).map m.outRead := by
  have hbytes : byteCount (m.take (entBits n)).length = entBits n / 8 := by
    rw [length_take_entBits hcount hlen, byteCount]
    omega
  rw [entropyBytes, pack8, hbytes]
  refine List.map_congr_left fun i hi => packByte_take _ _ _ ?_
  rw [List.mem_range] at hi
  omega

/-- CSGOT is the number that the checksum segment spells: it fits a byte. -/
theorem toNat_checksumGot : (checksumGot n m).toNat = val (checksumSegment n m) := by
  have hlt := val_lt (checksumSegment n m)
  rw [length_checksumSegment hcount hlen] at hlt
  have hfit : 2 ^ csBits n ≤ 2 ^ 8 := Nat.pow_le_pow_right (by decide) (csBits_le hcount)
  rw [checksumGot, BitVec.toNat_ofNat, Nat.mod_eq_of_lt (hlt.trans_le hfit)]

/-- The checksum segment alone packs to CSGOT, moved to the top of its byte. -/
theorem pack8_checksumSegment : pack8 (checksumSegment n m) = [checksumGot n m <<< (8 - csBits n)] := by
  have hseg := length_checksumSegment hcount hlen
  have hcs := csBits_le hcount
  obtain ⟨-, hthird, -, -⟩ := segments_of_valid hcount
  have hpos : 0 < n := by
    obtain rfl | rfl | rfl | rfl | rfl := (validWordCount_iff n).1 hcount <;> decide
  rw [pack8_of_le_eight (by omega) (by omega), hseg]
  refine congrArg (fun b => [b]) (BitVec.eq_of_toNat_eq ?_)
  rw [BitVec.toNat_ofNat, BitVec.toNat_shiftLeft, toNat_checksumGot hcount hlen]

/-- The whole phrase packs to the Entropy Buffer and one more byte (20_memory.md R55). -/
theorem pack8_eq_entropyBytes_append : pack8 m = entropyBytes n m ++ [checksumGot n m <<< (8 - csBits n)] := by
  obtain ⟨-, -, -, hbytes⟩ := segments_of_valid hcount
  have hfront := length_take_entBits hcount hlen
  rw [entropyBytes, ← pack8_checksumSegment hcount hlen, ← pack8_append (by omega),
    take_append_checksumSegment hcount hlen]

/-- The byte behind the Entropy Buffer is CSGOT, moved to the top. -/
theorem outRead_entBits : m.outRead (entBits n / 8) = checksumGot n m <<< (8 - csBits n) := by
  have hfront := length_take_entBits hcount hlen
  have hsplit := packByte_append_right hfront (checksumSegment n m) 0
  rw [take_append_checksumSegment hcount hlen] at hsplit
  have hbyte := getElem?_pack8 (checksumSegment n m) 0 (by
    rw [← length_pack8, pack8_checksumSegment hcount hlen, List.length_singleton]
    exact Nat.one_pos)
  rw [pack8_checksumSegment hcount hlen] at hbyte
  exact hsplit.trans (Option.some.inj hbyte).symm

end

/-- Settles O28: the segments make up the store, and the byte behind the Entropy Buffer holds the second one at its
top. -/
theorem splitOfThePhrase : Obligations.SplitOfThePhrase := fun n m hcount hlen =>
  ⟨take_append_checksumSegment hcount hlen, length_checksumSegment hcount hlen,
    entropyBytes_eq_map_outRead hcount hlen, by
      rw [outRead_entBits hcount hlen, shiftLeft_checksumGot_ushiftRight hcount _]⟩

end Sys2Proof.Proofs
end

section
/-! PROOFS. The compare of `FIN.S` is of bit sequences, and what follows for a phrase that passes
(41_finalize.md R115, R116). -/

open Sys2Proof Sys2Proof.Machine

namespace Sys2Proof.Proofs

/-- The leading bits of a value spell its quotient by a power of two (00_scope.md R9). -/
theorem val_take_bitsMsb {n : Nat} (v : BitVec n) (k : Nat) :
    val ((bitsMsb v).take k) = (v >>> (n - k)).toNat := by
  have hsplit : v.toNat = val ((bitsMsb v).take k) * 2 ^ (n - k) + val ((bitsMsb v).drop k) := by
    have happ := val_append ((bitsMsb v).take k) ((bitsMsb v).drop k)
    rwa [List.take_append_drop, val_bitsMsb, List.length_drop, length_bitsMsb] at happ
  have hlow := val_lt ((bitsMsb v).drop k)
  rw [List.length_drop, length_bitsMsb] at hlow
  rw [BitVec.toNat_ushiftRight, Nat.shiftRight_eq_div_pow, hsplit, Nat.mul_comm, Nat.mul_add_div (Nat.two_pow_pos _),
    Nat.div_eq_of_lt hlow, Nat.add_zero]

/-- Up to eight leading digest bits are those of its byte 0. -/
theorem leadingDigestBits_eq {n : Nat} (hcs : csBits n ≤ 8) (e : List Byte) :
    leadingDigestBits n e = (bitsMsb (Sha256.digestByte0 e)).take (csBits n) := by
  obtain ⟨b, rest, hdigest⟩ : ∃ b rest, Sha256.digest e = b :: rest := ⟨_, _, rfl⟩
  have hbyte : Sha256.digestByte0 e = b := by
    rw [Sha256.digestByte0, hdigest]
    rfl
  rw [leadingDigestBits, hdigest, hbyte, List.flatMap_cons, List.take_append_of_le_length (by simpa using hcs)]

/-- CSEXP is the number that the first CS(n) digest bits spell. -/
theorem toNat_checksumExpected {n : Nat} (hcount : validWordCount n = true) (m : Memory) :
    (checksumExpected n m).toNat = val (leadingDigestBits n (entropyBytes n m)) := by
  have hcs := csBits_le hcount
  rw [leadingDigestBits_eq hcs, val_take_bitsMsb, checksumExpected]

theorem length_leadingDigestBits {n : Nat} (hcount : validWordCount n = true) (e : List Byte) :
    (leadingDigestBits n e).length = csBits n := by
  have hcs := csBits_le hcount
  rw [leadingDigestBits_eq hcs, List.length_take, length_bitsMsb, Nat.min_eq_left hcs]

/-- Equal numbers are equal bit sequences, because both have CS(n) bits (41_finalize.md R115). -/
theorem checksumGot_eq_checksumExpected_iff {n : Nat} {m : Memory} (hcount : validWordCount n = true)
    (hlen : m.length = 11 * n) :
    checksumGot n m = checksumExpected n m ↔ m.drop (entBits n) = leadingDigestBits n (entropyBytes n m) := by
  have hseg := length_checksumSegment hcount hlen
  rw [← BitVec.toNat_inj, toNat_checksumGot hcount hlen, toNat_checksumExpected hcount,
    ← checksumSegment_eq_drop hcount hlen]
  exact ⟨eq_of_val_eq (hseg.trans (length_leadingDigestBits hcount _).symm), congrArg val⟩

/-- Settles O29: CSEXP spells the leading digest bits, and CSGOT the checksum segment of the same length. -/
theorem compareIsOfLeadingDigestBits : Obligations.CompareIsOfLeadingDigestBits := fun _ m hcount hlen =>
  ⟨toNat_checksumExpected hcount m, checksumGot_eq_checksumExpected_iff hcount hlen⟩

/-! ## A phrase that passes -/

/-- `FIN.S` ends in OK only on a valid count whose checksums agree. -/
theorem finalisedStrict_ok {s : State} (h : (finalisedStrict s).phase = .ok) :
    validWordCount s.wcnt.toNat = true ∧ checksumGot s.wcnt.toNat s.bs = checksumExpected s.wcnt.toNat s.bs := by
  obtain ⟨-, hs⟩ | ⟨hcount, hsum, -⟩ | ⟨-, -, hs⟩ := finalisedStrict_cases s
  · simp [hs] at h
  · exact ⟨hcount, hsum⟩
  · simp [hs] at h

/-- A change behind the entropy segment that `FIN.S` accepts is no change: the digest bits fix the checksum segment. -/
theorem drop_entBits_eq_of_match {n : Nat} {m m' : Memory} (hcount : validWordCount n = true)
    (hlen : m.length = 11 * n) (hlen' : m'.length = 11 * n) (hent : m'.take (entBits n) = m.take (entBits n))
    (hsum : checksumGot n m = checksumExpected n m) (hsum' : checksumGot n m' = checksumExpected n m') :
    m'.drop (entBits n) = m.drop (entBits n) := by
  rw [checksumGot_eq_checksumExpected_iff hcount hlen] at hsum
  rw [checksumGot_eq_checksumExpected_iff hcount hlen', entropyBytes, hent] at hsum'
  exact hsum'.trans hsum.symm

theorem drop_set_not_ne {l : BitSeq} {k p : Nat} {b : Bool} (hk : k ≤ p) (hbit : l[p]? = some b) :
    (l.set p (!b)).drop k ≠ l.drop k := by
  intro h
  obtain ⟨hlt, rfl⟩ := List.getElem?_eq_some_iff.1 hbit
  have hflip := congrArg (fun r => r[p - k]?) h
  simp [List.getElem?_drop, Nat.add_sub_cancel' hk, hlt] at hflip

/-- Flipping a bit behind the entropy segment leaves CSEXP as it was and turns a match into a mismatch. -/
theorem checksums_of_flip {n p : Nat} {m : Memory} {b : Bool} (hcount : validWordCount n = true)
    (hlen : m.length = 11 * n) (hp : entBits n ≤ p) (hbit : m[p]? = some b) :
    checksumExpected n (m.set p (!b)) = checksumExpected n m ∧
      (checksumGot n m = checksumExpected n m →
        checksumGot n (m.set p (!b)) ≠ checksumExpected n (m.set p (!b))) := by
  have hent : (m.set p (!b)).take (entBits n) = m.take (entBits n) := List.take_set_of_le hp
  refine ⟨by rw [checksumExpected, checksumExpected, entropyBytes, entropyBytes, hent], fun hsum hsum' => ?_⟩
  exact drop_set_not_ne hp hbit
    (drop_entBits_eq_of_match hcount hlen (by rw [List.length_set, hlen]) hent hsum hsum')

/-- Settles O33: the flipped bit leaves CSEXP as it was and breaks the match. `FIN.L` does not look at it. -/
theorem checksumSensitivity : Obligations.ChecksumSensitivity := by
  intro s t s' p b hphase hcount hlen hexec hok hp hbit hs'
  obtain rfl := Host.Outcome.next.inj ((exec_finalise_of_accum hphase .strict).symm.trans hexec)
  obtain ⟨-, hsum⟩ := finalisedStrict_ok hok
  obtain ⟨hexp, hflip⟩ := checksums_of_flip hcount hlen hp hbit
  obtain ⟨hphase', hwcnt, hbs⟩ : s'.phase = .accum ∧ s'.wcnt = s.wcnt ∧ s'.bs = s.bs.set p (!b) := by
    rw [hs']
    exact ⟨hphase, rfl, rfl⟩
  rw [← hbs] at hexp hflip
  rw [← hwcnt] at hcount hexp hflip hsum ⊢
  refine ⟨⟨_, exec_finalise_of_accum hphase' .strict, ?strict⟩, ⟨_, exec_finalise_of_accum hphase' .lenient, ?lenient⟩⟩
  case strict =>
    rw [finalised, finalisedStrict_of_mismatch hcount (hflip hsum),
      finalisedStrict_of_match (hwcnt ▸ hcount) (hwcnt ▸ hsum)]
    exact ⟨rfl, rfl, hexp.trans (by rw [hwcnt]; rfl)⟩
  case lenient =>
    rw [finalised, finalisedLenient_of_valid hcount]
    exact ⟨rfl, toNat_lenientOlen hcount⟩

/-- The readable bytes of a strict success are the Entropy Buffer (41_finalize.md R111). -/
theorem readableBytes_finalisedStrict {s : State} (hcount : validWordCount s.wcnt.toNat = true)
    (hlen : s.bs.length = 11 * s.wcnt.toNat)
    (hsum : checksumGot s.wcnt.toNat s.bs = checksumExpected s.wcnt.toNat s.bs) :
    readableBytes (finalisedStrict s) = entropyBytes s.wcnt.toNat s.bs := by
  rw [finalisedStrict_of_match hcount hsum, readableBytes, succeed_olen, toNat_strictOlen hcount,
    entropyBytes_eq_map_outRead hcount hlen]
  rfl

/-- The readable bytes of a lenient success are the whole packing (41_finalize.md R112). -/
theorem readableBytes_finalisedLenient {s : State} (hcount : validWordCount s.wcnt.toNat = true)
    (hlen : s.bs.length = 11 * s.wcnt.toNat) : readableBytes (finalisedLenient s) = pack8 s.bs := by
  rw [finalisedLenient_of_valid hcount, readableBytes_eq_pack8]
  · rfl
  · rw [succeed_olen, succeed_bs, toNat_lenientOlen hcount, hlen]

/-- Settles O35: both results are read from one store, whose packing is the Entropy Buffer and the byte that holds
CSGOT at its top. -/
theorem strictResultIsPrefixOfLenient : Obligations.StrictResultIsPrefixOfLenient := by
  intro s t u hinv hphase hexec hok hexec'
  obtain rfl := Host.Outcome.next.inj ((exec_finalise_of_accum hphase .strict).symm.trans hexec)
  obtain rfl := Host.Outcome.next.inj ((exec_finalise_of_accum hphase .lenient).symm.trans hexec')
  obtain ⟨hcount, hsum⟩ := finalisedStrict_ok hok
  have hlen := length_bs_of_valid hinv hcount
  have hgot : (finalisedStrict s).csgot = checksumGot s.wcnt.toNat s.bs := by
    rw [finalisedStrict_of_match hcount hsum]
    rfl
  have hprefix : readableBytes (finalisedLenient s) =
      readableBytes (finalisedStrict s) ++ [checksumGot s.wcnt.toNat s.bs <<< (8 - csBits s.wcnt.toNat)] := by
    rw [readableBytes_finalisedLenient hcount hlen, readableBytes_finalisedStrict hcount hlen hsum,
      pack8_eq_entropyBytes_append hcount hlen]
  refine ⟨?ok, _, hprefix, ?back, ?last⟩
  case ok =>
    rw [finalised, finalisedLenient_of_valid hcount]
    rfl
  case back => exact (shiftLeft_checksumGot_ushiftRight hcount _).trans hgot.symm
  case last => exact congrArg (· <<< _) hgot.symm

end Sys2Proof.Proofs
end

section
/-! PROOFS. Frames: what `PUSH`, a finalise and a read-out leave unchanged (40_accumulate.md, 41_finalize.md,
43_readout.md). -/

open Sys2Proof Sys2Proof.Machine

namespace Sys2Proof.Proofs

theorem sameButPerr_symm {s t : State} (h : SameButPerr s t) : SameButPerr t s := by
  obtain ⟨hbs, hwcnt, hphase, hfmode, hfcode, holen, hgot, hexp⟩ := h
  exact ⟨hbs.symm, hwcnt.symm, hphase.symm, hfmode.symm, hfcode.symm, holen.symm, hgot.symm, hexp.symm⟩

/-! ## `PUSH` -/

/-- A push only appends: it stores its eleven bits, or at a full store none. -/
theorem pushed_bs_cases (idx : WordIndex) (s : State) :
    s.wcnt.toNat < 24 ∧ (pushed idx s).bs = s.bs.append idx ∨ 24 ≤ s.wcnt.toNat ∧ (pushed idx s).bs = s.bs := by
  rcases Nat.lt_or_ge s.wcnt.toNat 24 with hroom | hfull
  · exact .inl ⟨hroom, pushed_bs_stored idx s hroom⟩
  · exact .inr ⟨hfull, pushed_bs_full idx s hfull⟩

/-- A byte outside those that the appended bits fall into reads as before. -/
theorem outRead_append_outside (m : Memory) (idx : WordIndex) {a : Nat}
    (ha : a < m.appendAt / 8 ∨ byteCount (m.appendAt + 11) ≤ a) : (m.append idx).outRead a = m.outRead a := by
  rw [Memory.appendAt] at ha
  rcases ha with hbefore | hbehind
  · exact Memory.outRead_append_complete m idx a hbefore
  · have hbeyond : byteCount m.length ≤ a := by
      rw [byteCount] at hbehind ⊢
      omega
    rw [Memory.outRead_beyond _ a (by rwa [Memory.length_append]), Memory.outRead_beyond _ a hbeyond]

/-- Settles O19: refused, the push leaves everything but PERR; accepted, it leaves `pushed`, whose store is an append or
the store as it was. -/
theorem pushFrame : Obligations.PushFrame := by
  intro idx s t hexec
  by_cases hphase : s.phase = .accum
  · obtain rfl :=
      Host.Outcome.next.inj ((exec_accepted (refusal_push_of_accum hphase idx)).symm.trans hexec)
    refine ⟨pushed_phase idx s, pushed_fmode idx s, pushed_fcode idx s, pushed_olen idx s, pushed_csgot idx s,
      pushed_csexp idx s, pushed_inputs idx s, fun _ => pushed_perr idx s, fun hne => absurd hphase hne,
      fun p hp => ?stored, fun a ha => ?bytes⟩
    case stored =>
      obtain ⟨-, hbs⟩ | ⟨-, hbs⟩ := pushed_bs_cases idx s <;> rw [accepted, respond_bs, hbs]
      exact List.getElem?_append_left hp
    case bytes =>
      obtain ⟨hroom, hbs⟩ | ⟨-, hbs⟩ := pushed_bs_cases idx s <;> rw [accepted, respond_bs, hbs]
      exact outRead_append_outside s.bs idx (ha hphase hroom)
  · obtain rfl :=
      Host.Outcome.next.inj ((exec_refused (refusal_push_of_not_accum hphase idx)).symm.trans hexec)
    exact ⟨rfl, rfl, rfl, rfl, rfl, rfl, rfl, fun h => absurd h hphase, fun _ => ⟨rfl, rfl, rfl⟩, fun _ _ => rfl,
      fun _ _ => rfl⟩

/-! ## The finalise commands -/

theorem exists_finaliseInstr {i : Instr} (h : i = .finS ∨ i = .finL) : ∃ mode, i = finaliseInstr mode := by
  obtain rfl | rfl := h
  · exact ⟨.strict, rfl⟩
  · exact ⟨.lenient, rfl⟩

/-- Of either finalise: the store, the count, the queue and PERR stay, and the window is closed. -/
theorem finalised_frame (mode : Mode) (s : State) :
    (finalised mode s).bs = s.bs ∧ (finalised mode s).wcnt = s.wcnt ∧ (finalised mode s).inputs = s.inputs ∧
      (finalised mode s).perr = s.perr ∧ ((finalised mode s).phase = .ok ∨ (finalised mode s).phase = .fail) := by
  cases mode with
  | strict => obtain ⟨-, h⟩ | ⟨-, -, h⟩ | ⟨-, -, h⟩ := finalisedStrict_cases s <;> simp [finalised, h]
  | lenient => obtain ⟨-, h⟩ | ⟨-, h⟩ := finalisedLenient_cases s <;> simp [finalised, h]

theorem finalisedLenient_checksums (s : State) :
    (finalisedLenient s).csgot = s.csgot ∧ (finalisedLenient s).csexp = s.csexp := by
  obtain ⟨-, h⟩ | ⟨-, h⟩ := finalisedLenient_cases s <;> simp [h]

/-- Settles O30: refused, a finalise leaves everything but PERR; accepted, it leaves `finalised`, of which
`finalised_frame` says what stays. -/
theorem finaliseFrame : Obligations.FinaliseFrame := by
  intro i s t hi hexec
  obtain ⟨mode, rfl⟩ := exists_finaliseInstr hi
  by_cases hphase : s.phase = .accum
  · obtain rfl := Host.Outcome.next.inj ((exec_finalise_of_accum hphase mode).symm.trans hexec)
    obtain ⟨hbs, hwcnt, hinputs, hperr, hclosed⟩ := finalised_frame mode s
    refine ⟨hbs, hwcnt, hinputs, fun a => congrArg (Memory.outRead · a) hbs, fun _ => ⟨hperr, hclosed⟩,
      fun hmode => ?lenient, fun hne => absurd hphase hne⟩
    case lenient =>
      cases mode with
      | strict => exact absurd hmode nofun
      | lenient => exact finalisedLenient_checksums s
  · obtain rfl := Host.Outcome.next.inj ((exec_finalise_of_not_accum hphase mode).symm.trans hexec)
    exact ⟨rfl, rfl, rfl, fun _ => rfl, fun h => absurd h hphase, fun _ => ⟨rfl, rfl⟩,
      fun _ => ⟨sameButPerr_symm (sameButPerr_raise _ s), rfl⟩⟩

/-! ## The read-outs -/

/-- An accepted read-out only answers, and answering changes neither whether the read-out is accepted nor what it
answers. -/
theorem readout_accepted {i : Instr} (hi : i = .stat ∨ i = .rdl ∨ i = .rdc ∨ ∃ n, i = .rdb n) (s : State) :
    ∃ d, accepted i s = respond d s ∧ accepted i (respond d s) = respond d s ∧
      refusal i (respond d s) = refusal i s := by
  obtain rfl | rfl | rfl | ⟨n, rfl⟩ := hi <;> exact ⟨_, rfl, rfl, rfl⟩

/-- Settles O49: a read-out raises its error or answers, and either leaves all components but PERR. -/
theorem readoutFrame : Obligations.ReadoutFrame := by
  intro i s t hi hexec
  cases h : refusal i s with
  | some e =>
    obtain rfl := Host.Outcome.next.inj ((exec_refused h).symm.trans hexec)
    exact ⟨sameButPerr_symm (sameButPerr_raise e s), rfl, fun _ => rfl, nofun, fun _ _ => rfl⟩
  | none =>
    obtain ⟨d, haccepted, hagain, hrefusal⟩ := readout_accepted hi s
    obtain rfl := Host.Outcome.next.inj ((exec_accepted h).symm.trans hexec)
    rw [haccepted]
    exact ⟨sameButPerr_symm (sameButPerr_respond d s), rfl, fun _ => rfl,
      fun _ _ => ⟨rfl, by rw [exec_accepted (hrefusal.trans h), hagain]⟩, nofun⟩

end Sys2Proof.Proofs
end

section
/-! PROOFS. Steps and runs: what one step takes, and how many responses a run has (20_memory.md R58,
60_exceptions.md R177). -/

open Sys2Proof Sys2Proof.Machine

namespace Sys2Proof.Proofs

theorem stepped_idle {s : State} (h : s.inputs = []) : stepped s = s := by simp [stepped, h]

/-- A step takes the oldest input, if there is one. -/
theorem stepped_inputs (s : State) : (stepped s).inputs = s.inputs.tail := by
  cases h : s.inputs with
  | nil => rw [stepped_idle h, h, List.tail_nil]
  | cons x rest =>
    cases x with
    | command w => rw [stepped_command h, issued_inputs, List.tail_cons]
    | reset => rw [stepped_reset h, List.tail_cons]

/-- Every word is answered. -/
theorem issued_rsp (w : CommandWord) (s : State) : ∃ r, (issued w s).rsp = some r := by
  cases h : wordRefusal w s with
  | some e => exact ⟨_, by rw [issued_refused h, raise_rsp]⟩
  | none =>
    obtain ⟨i, -, hi⟩ := issued_accepted h
    obtain ⟨d, hd⟩ := accepted_rsp i s
    exact ⟨_, by rw [hi, hd]⟩

/-- The step that takes a word lists its one response before those of the later steps. -/
theorem responses_command {s : State} {w : CommandWord} {rest : List HostInput} {r : Response}
    (hin : s.inputs = .command w :: rest) (hr : (stepped s).rsp = some r) (k : Nat) :
    responses (k + 1) s = r :: responses k (stepped s) := by
  rw [responses_succ, stepResponse_command hin, hr]
  rfl

theorem run_takes_inputs (k : Nat) (s : State) : ∃ t, run k s = .next t ∧ t.inputs = s.inputs.drop k := by
  induction k generalizing s with
  | zero => exact ⟨s, rfl, rfl⟩
  | succ k ih =>
    obtain ⟨t, hrun, hin⟩ := ih (stepped s)
    rw [stepped_inputs, List.drop_tail] at hin
    exact ⟨t, (run_succ k s).trans hrun, hin⟩

/-- Of a list of words the oldest is performed first. -/
theorem stepped_wordInputs {s : State} {w : CommandWord} {ws : List CommandWord} {rest : List HostInput}
    (hin : s.inputs = wordInputs (w :: ws) ++ rest) :
    stepped s = issued w { s with inputs := wordInputs ws ++ rest } := stepped_command hin

theorem length_responses_words (ws : List CommandWord) {s : State} {rest : List HostInput}
    (hin : s.inputs = wordInputs ws ++ rest) : (responses ws.length s).length = ws.length := by
  induction ws generalizing s with
  | nil => rfl
  | cons w ws ih =>
    have hnext : (stepped s).inputs = wordInputs ws ++ rest := by
      rw [stepped_inputs, hin]
      rfl
    obtain ⟨r, hr⟩ := issued_rsp w { s with inputs := wordInputs ws ++ rest }
    rw [← stepped_wordInputs hin] at hr
    rw [List.length_cons, responses_command hin hr, List.length_cons, ih hnext]

/-- Settles O10: every step answers a state and takes one input, and the step that takes a word lists one response. -/
theorem runsNeverGetStuck : Obligations.RunsNeverGetStuck :=
  ⟨run_takes_inputs, fun ws _ _ hin => length_responses_words ws hin⟩

/-- Settles O7: the step is the word's command, performed in the state whose queue has lost the word. -/
theorem stepRunsTheDecodedCommand : Obligations.StepRunsTheDecodedCommand := fun s w rest i hin hd => by
  rw [step_eq, stepped_command hin, issued_command hd, exec_eq]

/-- Settles O8: the model waits when nothing is pending. -/
theorem idleStepChangesNothing : Obligations.IdleStepChangesNothing := fun s hin => by
  rw [step_eq, stepped_idle hin]

/-- Settles O14: whatever the command leaves, the reset behind it leaves the reset state; the command's is the one
response. -/
theorem resetAbandonsTheCommand : Obligations.ResetAbandonsTheCommand := by
  intro s w rest hin
  have hnext : (stepped s).inputs = .reset :: rest := by rw [stepped_inputs, hin, List.tail_cons]
  have hreset : ({ s with inputs := .reset :: rest } : State).inputs = .reset :: rest := rfl
  obtain ⟨r, hr⟩ := issued_rsp w { s with inputs := .reset :: rest }
  rw [← stepped_command hin] at hr
  refine ⟨{ State.reset with inputs := rest }, ?after, ?alone, rfl, ?one, ?none⟩
  case after => rw [run_succ, run_succ, stepped_reset hnext, run]
  case alone => rw [run_succ, stepped_reset hreset, run]
  case one => rw [responses_command hin hr, responses_succ, stepResponse_reset hnext, responses]; rfl
  case none => rw [responses_succ, stepResponse_reset hreset, responses]; rfl

end Sys2Proof.Proofs
end

section
/-! PROOFS. Two windows with the same words agree (10_state.md R36, 41_finalize.md R116 item 4). -/

open Sys2Proof Sys2Proof.Machine

namespace Sys2Proof.Proofs

/-- A step on one word, in states with equal components: equal components and one equal response. -/
theorem stepped_sameComponents {s s' : State} (hsame : SameComponents s s') {w : CommandWord}
    {rest rest' : List HostInput} (hin : s.inputs = .command w :: rest) (hin' : s'.inputs = .command w :: rest') :
    SameComponents (stepped s) (stepped s') ∧ (stepped s).rsp = (stepped s').rsp := by
  rw [stepped_command_eq hin, stepped_command_eq hin']
  exact issued_sameComponents hsame w

/-- `CLR` leaves equal components and the same response in any two states. -/
theorem stepped_clr_sameComponents {s s' : State} {rest rest' : List HostInput}
    (hin : s.inputs = .command 0x1000 :: rest) (hin' : s'.inputs = .command 0x1000 :: rest') :
    SameComponents (stepped s) (stepped s') ∧ (stepped s).rsp = (stepped s').rsp := by
  have hclr := (decode_eq_clr_iff 0x1000).2 rfl
  rw [stepped_command hin, stepped_command hin', issued_command hclr, issued_command hclr]
  exact ⟨⟨rfl, rfl, rfl, rfl, rfl, rfl, rfl, rfl, rfl⟩, rfl⟩

theorem run_words_sameComponents (ws : List CommandWord) {s s' t t' : State} {rest rest' : List HostInput}
    (hsame : SameComponents s s') (hin : s.inputs = wordInputs ws ++ rest) (hin' : s'.inputs = wordInputs ws ++ rest')
    (hrun : run ws.length s = .next t) (hrun' : run ws.length s' = .next t') :
    SameComponents t t' ∧ responses ws.length s = responses ws.length s' := by
  induction ws generalizing s s' with
  | nil =>
    obtain rfl := Host.Outcome.next.inj hrun
    obtain rfl := Host.Outcome.next.inj hrun'
    exact ⟨hsame, rfl⟩
  | cons w ws ih =>
    obtain ⟨hnext, hrsp⟩ := stepped_sameComponents hsame hin hin'
    rw [List.length_cons, run_succ] at hrun hrun'
    obtain ⟨hend, hlist⟩ := ih hnext (by rw [stepped_inputs, hin]; rfl) (by rw [stepped_inputs, hin']; rfl) hrun hrun'
    rw [List.length_cons, responses_succ, responses_succ, stepResponse_command hin, stepResponse_command hin', hrsp,
      hlist]
    exact ⟨hend, rfl⟩

/-- Settles O34: after `CLR` the two states agree, and from there on every word keeps it so. -/
theorem windowsAreIdempotent : Obligations.WindowsAreIdempotent := by
  intro ws s₁ s₂ t₁ t₂ rest₁ rest₂ hin₁ hin₂ hrun₁ hrun₂
  obtain ⟨hsame, hrsp⟩ := stepped_clr_sameComponents hin₁ hin₂
  rw [run_succ] at hrun₁ hrun₂
  obtain ⟨hend, hlist⟩ := run_words_sameComponents ws hsame (by rw [stepped_inputs, hin₁]; rfl)
    (by rw [stepped_inputs, hin₂]; rfl) hrun₁ hrun₂
  rw [responses_succ, responses_succ, stepResponse_command hin₁, stepResponse_command hin₂, hrsp, hlist]
  exact ⟨hend, rfl⟩

end Sys2Proof.Proofs
end

section
/-! PROOFS. What the store and the count hold after the words of a window (20_memory.md R52, 10_state.md R22, R23). -/

open Sys2Proof Sys2Proof.Machine

namespace Sys2Proof.Proofs

/-- The store holds the first 24 of the indices `idxs` and WCNT their saturated number. -/
def HoldsPhrase (idxs : List WordIndex) (s : State) : Prop :=
  s.bs = phraseBits (idxs.take 24) ∧ s.wcnt.toNat = min idxs.length 255

/-- A push adds its index to those held. -/
theorem HoldsPhrase.pushed {idxs : List WordIndex} {s : State} (h : HoldsPhrase idxs s) (idx : WordIndex) :
    HoldsPhrase (idxs ++ [idx]) (pushed idx s) := by
  obtain ⟨hbs, hcount⟩ := h
  have hwcnt : (Machine.pushed idx s).wcnt.toNat = min (idxs ++ [idx]).length 255 := by
    rw [pushed_wcnt, toNat_nextCount, hcount, List.length_append, List.length_singleton]
    omega
  refine ⟨?_, hwcnt⟩
  obtain ⟨hroom, hstored⟩ | ⟨hfull, hkept⟩ := pushed_bs_cases idx s
  · have htake : idxs.take 24 = idxs := List.take_of_length_le (by omega)
    rw [hstored, hbs, htake, List.take_of_length_le (by simp; omega), phraseBits_append]
    simp [Memory.append, phraseBits]
  · rw [hkept, hbs, List.take_append_of_le_length (by omega)]

/-- Only `CLR`, and in an open window `PUSH`, change the store or the count. -/
theorem issued_store {w : CommandWord} {s : State} (hw : w ≠ 0x1000)
    (hpush : ∀ idx, decode w = .command (.push idx) → s.phase ≠ .accum) :
    (issued w s).bs = s.bs ∧ (issued w s).wcnt = s.wcnt := by
  cases h : wordRefusal w s with
  | some e =>
    rw [issued_refused h]
    exact ⟨rfl, rfl⟩
  | none =>
    obtain ⟨i, hd, hi⟩ := issued_accepted h
    rw [hi]
    cases i with
    | clr => exact absurd rfl (ne_clr_of_decode hd hw)
    | push idx =>
      rw [wordRefusal_of_not_accum (hpush idx hd) (.inl ⟨idx, hd⟩)] at h
      exact absurd h nofun
    | finS => exact ⟨finalisedStrict_bs s, finalisedStrict_wcnt s⟩
    | finL => exact ⟨finalisedLenient_bs s, finalisedLenient_wcnt s⟩
    | stat => exact ⟨rfl, rfl⟩
    | rdb n => exact ⟨rfl, rfl⟩
    | rdl => exact ⟨rfl, rfl⟩
    | rdc => exact ⟨rfl, rfl⟩

theorem HoldsPhrase.issued {idxs : List WordIndex} {s : State} (h : HoldsPhrase idxs s) {w : CommandWord}
    (hw : w ≠ 0x1000) (hpush : ∀ idx, decode w = .command (.push idx) → s.phase ≠ .accum) :
    HoldsPhrase idxs (issued w s) := by
  obtain ⟨hbs, hwcnt⟩ := issued_store hw hpush
  rwa [HoldsPhrase, hbs, hwcnt]

/-- Once the window is closed, no word but `CLR` changes what is held. -/
theorem run_closed_window (ws : List CommandWord) {s : State} {rest : List HostInput} {idxs : List WordIndex}
    (hin : s.inputs = wordInputs ws ++ rest) (hws : ∀ w ∈ ws, w ≠ 0x1000) (hphase : s.phase ≠ .accum)
    (hheld : HoldsPhrase idxs s) : ∃ t, run ws.length s = .next t ∧ HoldsPhrase idxs t := by
  induction ws generalizing s with
  | nil => exact ⟨s, rfl, hheld⟩
  | cons w ws ih =>
    obtain ⟨hw, hrest⟩ := List.forall_mem_cons.1 hws
    obtain ⟨u, hu, huphase, huheld⟩ : ∃ u : State, stepped s = issued w u ∧ u.phase ≠ .accum ∧ HoldsPhrase idxs u :=
      ⟨_, stepped_wordInputs hin, hphase, hheld⟩
    have hnext : (issued w u).inputs = wordInputs ws ++ rest := by
      rw [← hu, stepped_inputs, hin]
      rfl
    rw [List.length_cons, run_succ, hu]
    refine ih hnext hrest ?_ (huheld.issued hw fun _ _ => huphase)
    rwa [issued_phase_of_not_accum hw huphase]

/-- The words of an open window but `CLR`: a push, a finalise, or a word that leaves the window open. -/
theorem windowIndices_cons_cases {w : CommandWord} (hw : w ≠ 0x1000) (ws : List CommandWord) :
    (∃ idx, decode w = .command (.push idx) ∧ windowIndices (w :: ws) = idx :: windowIndices ws) ∨
    (∃ mode, decode w = .command (finaliseInstr mode) ∧ windowIndices (w :: ws) = []) ∨
    ((decode w = .command .stat ∨ decode w = .command .rdl ∨ decode w = .command .rdc ∨
        (∃ n, decode w = .command (.rdb n)) ∨ (∃ e, decode w = .illegal e)) ∧
      windowIndices (w :: ws) = windowIndices ws) := by
  cases hd : decode w with
  | illegal e => exact .inr (.inr ⟨by simp, by simp [windowIndices, hd]⟩)
  | command i =>
    cases i with
    | clr => exact absurd rfl (ne_clr_of_decode hd hw)
    | push idx => exact .inl ⟨idx, rfl, by simp [windowIndices, hd]⟩
    | finS => exact .inr (.inl ⟨.strict, rfl, by simp [windowIndices, hd]⟩)
    | finL => exact .inr (.inl ⟨.lenient, rfl, by simp [windowIndices, hd]⟩)
    | stat => exact .inr (.inr ⟨by simp, by simp [windowIndices, hd]⟩)
    | rdb n => exact .inr (.inr ⟨by simp, by simp [windowIndices, hd]⟩)
    | rdl => exact .inr (.inr ⟨by simp, by simp [windowIndices, hd]⟩)
    | rdc => exact .inr (.inr ⟨by simp, by simp [windowIndices, hd]⟩)

/-- The words of an open window add the indices of its accepted pushes to those held. -/
theorem run_open_window (ws : List CommandWord) {s : State} {rest : List HostInput} {idxs : List WordIndex}
    (hin : s.inputs = wordInputs ws ++ rest) (hws : ∀ w ∈ ws, w ≠ 0x1000) (hphase : s.phase = .accum)
    (hheld : HoldsPhrase idxs s) : ∃ t, run ws.length s = .next t ∧ HoldsPhrase (idxs ++ windowIndices ws) t := by
  induction ws generalizing s idxs with
  | nil => exact ⟨s, rfl, by rwa [windowIndices, List.append_nil]⟩
  | cons w ws ih =>
    obtain ⟨hw, hrest⟩ := List.forall_mem_cons.1 hws
    obtain ⟨u, hu, huphase, huheld⟩ : ∃ u : State, stepped s = issued w u ∧ u.phase = .accum ∧ HoldsPhrase idxs u :=
      ⟨_, stepped_wordInputs hin, hphase, hheld⟩
    have hnext : (issued w u).inputs = wordInputs ws ++ rest := by
      rw [← hu, stepped_inputs, hin]
      rfl
    rw [List.length_cons, run_succ, hu]
    obtain ⟨idx, hd, hidxs⟩ | ⟨mode, hd, hidxs⟩ | ⟨hd, hidxs⟩ := windowIndices_cons_cases hw ws <;> rw [hidxs]
    · have hpushed : HoldsPhrase (idxs ++ [idx]) (issued w u) := by
        rw [issued_command hd, executed_accepted (refusal_push_of_accum huphase idx)]
        exact huheld.pushed idx
      obtain ⟨t, hrun, ht⟩ := ih hnext hrest (issued_push_phase_of_accum hd huphase) hpushed
      exact ⟨t, hrun, by rwa [List.append_assoc] at ht⟩
    · have hclosed : (issued w u).phase ≠ .accum := by
        rw [issued_finalise_of_accum hd huphase]
        obtain ⟨-, -, -, -, h | h⟩ := finalised_frame mode u <;> simp [h]
      rw [List.append_nil]
      refine run_closed_window ws hnext hrest hclosed (huheld.issued hw fun idx hpush => ?_)
      cases mode <;> exact absurd (hd.symm.trans hpush) nofun
    · refine ih hnext hrest ((issued_phase_of_readout_or_illegal hd u).trans huphase)
        (huheld.issued hw fun idx hpush => ?_)
      simp [hpush] at hd

/-- Settles O18: the window starts with no index held, and its words add those of the accepted pushes; each stands
where the placement formula says. -/
theorem bitStringHoldsTheAcceptedIndices : Obligations.BitStringHoldsTheAcceptedIndices := by
  intro ws s rest hin hws hphase hbs hwcnt
  have hempty : HoldsPhrase [] s := ⟨hbs, by rw [hwcnt]; rfl⟩
  obtain ⟨t, hrun, hheld⟩ := run_open_window ws hin hws hphase hempty
  rw [List.nil_append] at hheld
  obtain ⟨hbs, hcount⟩ := hheld
  refine ⟨t, hrun, hcount, ?length, fun k j idx hk hj hidx => ?index, fun p hp => ?position⟩
  case length => rw [hbs, length_phraseBits, List.length_take, Nat.min_comm]
  case index =>
    have hdiv : (11 * k + j) / 11 = k := by omega
    have hmod : (11 * k + j) % 11 = j := by omega
    rw [hbs, getElem?_phraseBits, hdiv, hmod, List.getElem?_take_of_lt hk, hidx]
    rfl
  case position =>
    rw [hbs, length_phraseBits, List.length_take] at hp
    have hlt : p / 11 < (windowIndices ws).length := by omega
    refine ⟨_, List.getElem?_eq_getElem hlt, ?_⟩
    rw [hbs, getElem?_phraseBits, List.getElem?_take_of_lt (by omega), List.getElem?_eq_getElem hlt]
    rfl

end Sys2Proof.Proofs
end

section
/-! PROOFS. A phrase window on the block computes the source's decode (00_scope.md R3 items 3 to 6), and the strict
round trip that follows (41_finalize.md R116 item 1). -/

open Sys2Proof Sys2Proof.Machine

namespace Sys2Proof.Proofs

/-! ## The commands of a phrase -/

theorem stepped_hostInputs {s : State} {i : Instr} {is : List Instr} {rest : List HostInput}
    (hin : s.inputs = hostInputs (i :: is) ++ rest) :
    stepped s = executed i { s with inputs := hostInputs is ++ rest } := by
  rw [stepped_command hin, issued_command (decode_encode i)]
  rfl

/-- A window still open, with no refusal seen, that holds the indices `idxs`. -/
def OpenWindow (idxs : List WordIndex) (s : State) : Prop :=
  s.phase = .accum ∧ NoRefusalSeen s ∧ HoldsPhrase idxs s

theorem openWindow_clr (s : State) : OpenWindow [] (executed .clr s) := ⟨rfl, rfl, rfl, rfl⟩

theorem OpenWindow.push {idxs : List WordIndex} {s : State} (h : OpenWindow idxs s) (idx : WordIndex) :
    OpenWindow (idxs ++ [idx]) (executed (.push idx) s) := by
  obtain ⟨hphase, hperr, hheld⟩ := h
  rw [executed_accepted (refusal_push_of_accum hphase idx)]
  exact ⟨(pushed_phase idx s).trans hphase, (pushed_perr idx s).trans hperr, hheld.pushed idx⟩

/-- The pushes of a phrase add their indices to those held. -/
theorem run_pushes (more : List WordIndex) {idxs : List WordIndex} {s : State} {rest : List HostInput}
    (hin : s.inputs = hostInputs (more.map .push) ++ rest) (hopen : OpenWindow idxs s) :
    ∃ t, run more.length s = .next t ∧ OpenWindow (idxs ++ more) t ∧ t.inputs = rest := by
  induction more generalizing idxs s with
  | nil => exact ⟨s, rfl, by rwa [List.append_nil], hin⟩
  | cons idx more ih =>
    have hstep := stepped_hostInputs hin
    have hnext : (stepped s).inputs = hostInputs (more.map .push) ++ rest := by
      rw [stepped_inputs, hin]
      rfl
    have hpushed : OpenWindow (idxs ++ [idx]) (stepped s) := by
      rw [hstep]
      exact OpenWindow.push (s := { s with inputs := hostInputs (more.map .push) ++ rest }) hopen idx
    obtain ⟨t, hrun, ht, hrest⟩ := ih hnext hpushed
    rw [List.append_assoc] at ht
    exact ⟨t, (run_succ _ _).trans hrun, ht, hrest⟩

/-- A whole phrase window ends in what the finalise leaves of an open window that holds the phrase. -/
theorem run_phrase {mode : Mode} {idxs : List WordIndex} {s : State} {rest : List HostInput}
    (hin : s.inputs = hostInputs (phraseInstrs mode idxs) ++ rest) :
    ∃ u d, OpenWindow idxs u ∧ u.inputs = rest ∧ run (idxs.length + 2) s = .next (respond d (finalised mode u)) := by
  have hnext : (stepped s).inputs = hostInputs (idxs.map .push) ++ (hostInputs [finaliseInstr mode] ++ rest) := by
    rw [stepped_inputs, hin]
    simp [phraseInstrs, hostInputs]
  have hclr : OpenWindow [] (stepped s) := by
    rw [stepped_hostInputs hin]
    exact openWindow_clr _
  obtain ⟨t, hrun, hopen, hlast⟩ := run_pushes idxs hnext hclr
  obtain ⟨hsplit, -⟩ := run_add_responses_add idxs.length 1 hrun
  obtain ⟨u, hu, huopen, hurest⟩ : ∃ u : State, stepped t = executed (finaliseInstr mode) u ∧ OpenWindow idxs u ∧
      u.inputs = rest := ⟨_, stepped_hostInputs hlast, hopen, rfl⟩
  have hphase : u.phase = .accum := huopen.left
  refine ⟨u, statusWord (finalised mode u), huopen, hurest, ?_⟩
  rw [run_succ, hsplit, run_succ, hu, executed_accepted (refusal_finalise_of_accum hphase mode), accepted_finalise, run]

/-! ## The outcome of the finalise -/

/-- Saturation does not make a count valid: every count above 24 is invalid (log 19). -/
theorem validWordCount_min (n : Nat) : validWordCount (min n 255) = validWordCount n := by
  rcases Nat.le_total n 255 with hle | hge
  · rw [Nat.min_eq_left hle]
  · rw [Nat.min_eq_right hge, validWordCount_eq_false_of_lt (by omega), validWordCount_eq_false_of_lt (by omega)]

/-- With a valid count nothing is cut off and nothing saturates. -/
theorem HoldsPhrase.of_valid {idxs : List WordIndex} {s : State} (h : HoldsPhrase idxs s)
    (hcount : validWordCount idxs.length = true) : s.bs = phraseBits idxs ∧ s.wcnt.toNat = idxs.length := by
  obtain ⟨hbs, hwcnt⟩ := h
  have hle := le_of_validWordCount hcount
  rw [hbs, hwcnt, List.take_of_length_le hle]
  exact ⟨rfl, Nat.min_eq_left (by omega)⟩

theorem outcome_failCount (mode : Mode) (s : State) :
    outcome (failCount mode s) = some (.invalidWordCount s.wcnt.toNat) := rfl

theorem outcome_succeed (mode : Mode) (len : BitVec 6) (s : State) :
    outcome (succeed mode len s) = some (.success mode (readableBytes (succeed mode len s))) := by
  cases mode <;> rfl

theorem outcome_failChecksum (s : State) : outcome (failChecksum s) = some .checksumMismatch := rfl

/-- `FIN.S` compares, packs and reports as the reference function does. -/
theorem outcome_finalisedStrict {idxs : List WordIndex} {s : State} (hheld : HoldsPhrase idxs s)
    (hcount : validWordCount idxs.length = true) :
    outcome (finalisedStrict s) = some (referenceDecode .strict idxs) := by
  obtain ⟨hbs, hwcnt⟩ := hheld.of_valid hcount
  have hlen : (phraseBits idxs).length = 11 * idxs.length := length_phraseBits idxs
  have hiff := checksumGot_eq_checksumExpected_iff hcount hlen
  have hvalid : validWordCount s.wcnt.toNat = true := by rwa [hwcnt]
  rw [entropyBytes] at hiff
  by_cases hsum : checksumGot idxs.length (phraseBits idxs) = checksumExpected idxs.length (phraseBits idxs)
  · have hsum' : checksumGot s.wcnt.toNat s.bs = checksumExpected s.wcnt.toNat s.bs := by rwa [hwcnt, hbs]
    have hread := readableBytes_finalisedStrict hvalid (by rw [hbs, hlen, hwcnt]) hsum'
    rw [finalisedStrict_of_match hvalid hsum'] at hread ⊢
    rw [outcome_succeed, hread, referenceDecode, if_pos hcount]
    rw [if_pos (hiff.1 hsum), hwcnt, hbs, entropyBytes]
  · rw [finalisedStrict_of_mismatch hvalid (by rwa [hwcnt, hbs]), outcome_failChecksum, referenceDecode, if_pos hcount]
    rw [if_neg (mt hiff.2 hsum)]

/-- `FIN.L` packs and reports as the reference function does. -/
theorem outcome_finalisedLenient {idxs : List WordIndex} {s : State} (hheld : HoldsPhrase idxs s)
    (hcount : validWordCount idxs.length = true) :
    outcome (finalisedLenient s) = some (referenceDecode .lenient idxs) := by
  obtain ⟨hbs, hwcnt⟩ := hheld.of_valid hcount
  have hvalid : validWordCount s.wcnt.toNat = true := by rwa [hwcnt]
  have hread := readableBytes_finalisedLenient hvalid (by rw [hbs, length_phraseBits, hwcnt])
  rw [finalisedLenient_of_valid hvalid] at hread ⊢
  rw [outcome_succeed, hread, hbs, referenceDecode, if_pos hcount]

/-- A reference outcome of a valid count is reported as it is. -/
theorem asReported_of_valid {idxs : List WordIndex} (hcount : validWordCount idxs.length = true) (mode : Mode) :
    (referenceDecode mode idxs).asReported = referenceDecode mode idxs := by
  cases mode with
  | lenient =>
    rw [referenceDecode, if_pos hcount]
    rfl
  | strict =>
    rw [referenceDecode, if_pos hcount]
    split <;> rfl

theorem referenceDecode_of_invalid {idxs : List WordIndex} (hcount : validWordCount idxs.length = false) (mode : Mode) :
    referenceDecode mode idxs = .invalidWordCount idxs.length := by
  cases mode <;> rw [referenceDecode, if_neg (by simp [hcount])]

/-- Either finalise of a window that holds a phrase has the outcome of the reference function, as reported. -/
theorem outcome_finalised {idxs : List WordIndex} {s : State} (hheld : HoldsPhrase idxs s) (mode : Mode) :
    outcome (finalised mode s) = some (referenceDecode mode idxs).asReported := by
  cases hcount : validWordCount idxs.length with
  | false =>
    obtain ⟨-, hwcnt⟩ := hheld
    have hinvalid : validWordCount s.wcnt.toNat = false := by rw [hwcnt, validWordCount_min, hcount]
    rw [finalised_of_invalid hinvalid, outcome_failCount, hwcnt, referenceDecode_of_invalid hcount]
    rfl
  | true =>
    rw [asReported_of_valid hcount]
    cases mode with
    | strict => exact outcome_finalisedStrict hheld hcount
    | lenient => exact outcome_finalisedLenient hheld hcount

/-- Settles O36: after `CLR` and the pushes the open window holds the phrase, and the finalise has the reference
outcome. -/
theorem blockComputesTheSourceDecode : Obligations.BlockComputesTheSourceDecode := by
  intro mode idxs s rest hin
  obtain ⟨u, d, ⟨-, hperr, hheld⟩, hrest, hrun⟩ := run_phrase hin
  obtain ⟨-, -, hinputs, hkeep, -⟩ := finalised_frame mode u
  exact ⟨_, hrun, outcome_finalised hheld mode, hkeep.trans hperr, hinputs.trans hrest⟩

/-! ## The strict round trip -/

theorem of_outcome_eq_success {t : State} {mode : Mode} {b : List Byte} (h : outcome t = some (.success mode b)) :
    t.phase = .ok ∧ readableBytes t = b := by
  unfold outcome at h
  split at h <;> simp_all

theorem length_readableBytes (s : State) : (readableBytes s).length = s.olen.toNat := by simp [readableBytes]

theorem getElem?_readableBytes (s : State) {i : Nat} (hi : i < s.olen.toNat) :
    (readableBytes s)[i]? = some (s.bs.outRead i) := by simp [readableBytes, hi]

/-- The phrase made of an entropy of `4 m` bytes and the first `m` digest bits decodes strictly to that entropy. -/
theorem referenceDecode_of_entropy {e : List Byte} {m : Nat} {idxs : List WordIndex} (hm : m ∈ [4, 5, 6, 7, 8])
    (he : e.length = 4 * m) (hidxs : idxs.length = 3 * m)
    (hbits : phraseBits idxs = e.flatMap bitsMsb ++ ((Sha256.digest e).flatMap bitsMsb).take m) :
    referenceDecode .strict idxs = .success .strict e := by
  have hparams : ∀ m ∈ [4, 5, 6, 7, 8],
      validWordCount (3 * m) = true ∧ entBits (3 * m) = 32 * m ∧ csBits (3 * m) = m := by decide
  obtain ⟨hcount, hent, hcs⟩ := hparams m hm
  have hlen : (e.flatMap bitsMsb).length = 32 * m := by
    rw [length_flatMap_bits, he]
    omega
  have htake : (phraseBits idxs).take (32 * m) = e.flatMap bitsMsb := by
    rw [hbits, ← hlen, List.take_left]
  have hdrop : (phraseBits idxs).drop (32 * m) = ((Sha256.digest e).flatMap bitsMsb).take m := by
    rw [hbits, ← hlen, List.drop_left]
  rw [referenceDecode, hidxs, if_pos hcount, hent, htake, hdrop, pack8_flatMap_bits, leadingDigestBits, hcs, if_pos rfl]

/-- Settles O32: the eleven-bit groups spell the entropy and its checksum, so that the reference function, and with it
the block, gives the entropy back. -/
theorem strictRoundTrip : Obligations.StrictRoundTrip := by
  intro s rest e m bits idxs hm he hbits hidxs hin
  have hcount : idxs.length = 3 * m := by simp [hidxs]
  have hphrase : phraseBits idxs = bits := by
    rw [hidxs]
    refine phraseBits_groups (3 * m) bits ?_
    have hm8 : m ≤ 8 := by simp at hm; omega
    have hdigest : (Sha256.digest e).length = 32 := rfl
    rw [hbits, List.length_append, length_flatMap_bits, List.length_take, length_flatMap_bits, he, hdigest]
    omega
  have hdecode := referenceDecode_of_entropy hm he hcount (hphrase.trans hbits)
  obtain ⟨t, hrun, hout, hperr, hrest⟩ := blockComputesTheSourceDecode .strict idxs s rest hin
  rw [hdecode] at hout
  obtain ⟨hphase, hread⟩ := of_outcome_eq_success hout
  have holen : t.olen.toNat = 4 * m := by rw [← length_readableBytes, hread, he]
  rw [hcount] at hrun
  refine ⟨t, hrun, hphase, holen, hperr, hrest, fun i hi => ?_, hread⟩
  rw [← hread, getElem?_readableBytes t (holen ▸ hi)]

end Sys2Proof.Proofs
end

section
/-! PROOFS. The host's procedure to collect a result, and how STATUS tells the outcome (43_readout.md R152, R157). -/

open Sys2Proof Sys2Proof.Machine

namespace Sys2Proof.Proofs

/-! ## Collecting -/

/-- An accepted `RDB` given next answers its byte and changes nothing else. -/
theorem stepped_rdb {s : State} {n : OutAddr} {is : List Instr} {rest : List HostInput} (hphase : s.phase = .ok)
    (hn : n.toNat < s.olen.toNat) (hin : s.inputs = hostInputs (.rdb n :: is) ++ rest) :
    stepped s = respond (zext16 (s.bs.outRead n.toNat)) { s with inputs := hostInputs is ++ rest } := by
  rw [stepped_hostInputs hin]
  exact executed_accepted ((refusal_rdb_eq_none_iff n { s with inputs := _ }).2 ⟨hphase, hn⟩)

/-- A list of reads below OLEN answers the bytes read. -/
theorem responses_reads (ns : List OutAddr) {s : State} {rest : List HostInput} (hphase : s.phase = .ok)
    (hns : ∀ n ∈ ns, n.toNat < s.olen.toNat) (hin : s.inputs = hostInputs (ns.map .rdb) ++ rest) :
    responses ns.length s = ns.map fun n => ⟨false, zext16 (s.bs.outRead n.toNat)⟩ := by
  induction ns generalizing s with
  | nil => rfl
  | cons n ns ih =>
    obtain ⟨hn, hrest⟩ := List.forall_mem_cons.1 hns
    have hstep := stepped_rdb hphase hn hin
    rw [List.length_cons, responses_command hin (by rw [hstep, respond_rsp]), hstep, List.map_cons,
      ih (s := respond _ { s with inputs := _ }) hphase hrest rfl]
    rfl

/-- The readable bytes are the first OLEN bytes of the packed store. -/
theorem readableBytes_eq_take {s : State} (h : s.olen.toNat ≤ byteCount s.bs.length) :
    readableBytes s = (pack8 s.bs).take s.olen.toNat := by
  rw [readableBytes, pack8, ← List.map_take, List.take_range, Nat.min_eq_left h]
  rfl

/-- Settles O51: `RDL` answers LEN and changes nothing, and the reads behind it answer the readable bytes. -/
theorem collectingReadsTheBuffer : Obligations.CollectingReadsTheBuffer := by
  intro s rest hinv hphase hin
  refine ⟨?responses, lenWord_olen s, readableBytes_eq_take (olen_le_byteCount hinv hphase)⟩
  have haddr : ∀ n ∈ List.range s.olen.toNat, (BitVec.ofNat 6 n).toNat = n := fun n hn => by
    have hlt := s.olen.isLt
    rw [List.mem_range] at hn
    rw [BitVec.toNat_ofNat, Nat.mod_eq_of_lt (by omega)]
  have hreads := responses_reads ((List.range s.olen.toNat).map (BitVec.ofNat 6)) (s := stepped s) (rest := rest)
    (by rw [stepped_hostInputs hin]; exact hphase)
    (fun n hn => by
      obtain ⟨k, hk, rfl⟩ := List.mem_map.1 hn
      rw [stepped_hostInputs hin, haddr k hk]
      exact List.mem_range.1 hk)
    (by rw [stepped_inputs, hin, List.map_map]; rfl)
  rw [List.length_map, List.length_range] at hreads
  rw [responses_command hin (by rw [stepped_hostInputs hin]; rfl), hreads, readableBytes, List.map_map, List.map_map]
  refine congrArg (_ :: ·) (List.map_congr_left fun n hn => ?_)
  rw [Function.comp_apply, haddr n hn, stepped_hostInputs hin]
  rfl

/-! ## The low byte of STATUS -/

/-- A slice from below that reaches into the high part of a concatenation. -/
theorem extract_into_high {m n : Nat} (a : BitVec m) (b : BitVec n) (k : Nat) :
    (a ++ b).extractLsb' 0 (k + n) = a.extractLsb' 0 k ++ b := by
  refine BitVec.eq_of_getLsbD_eq fun i hi => ?_
  simp only [BitVec.getLsbD_append, BitVec.getLsbD_extractLsb', hi, Nat.zero_add, decide_true, Bool.true_and]
  split
  next => rfl
  next h => rw [decide_eq_true (by omega), Bool.true_and]

/-- The low byte of STATUS (10_state.md R31). -/
theorem statusWord_low (s : State) : (statusWord s).extractLsb' 0 8 =
    (0#2 ++ BitVec.ofBool s.perr ++ s.fmode.code ++ s.fcode.code ++ s.phase.code : BitVec (2 + 1 + 1 + 2 + 2)) := by
  rw [statusWord]
  refine (extract_into_high (n := 2) _ _ 6).trans (congrArg (· ++ s.phase.code) ?_)
  refine (extract_into_high (n := 2) _ _ 4).trans (congrArg (· ++ s.fcode.code) ?_)
  refine (extract_into_high (n := 1) _ _ 3).trans (congrArg (· ++ s.fmode.code) ?_)
  exact (extract_into_high (n := 1) _ _ 2).trans (congrArg (· ++ BitVec.ofBool s.perr) (extract_low _ _))

/-- PERR stands alone in bit 5, so setting it adds 0x20. -/
theorem append_ofBool_eq_add : ∀ (p : Bool) (x : BitVec 1) (y z : BitVec 2),
    (0#2 ++ BitVec.ofBool p ++ x ++ y ++ z : BitVec (2 + 1 + 1 + 2 + 2)) =
      (0#3 ++ x ++ y ++ z : BitVec (3 + 1 + 2 + 2)) + (if p then 0x20 else 0) := by decide

/-- The low byte of STATUS without PERR: what tells the outcome (43_readout.md R152). -/
def outcomeByte (s : State) : BitVec 8 :=
  (0#3 ++ s.fmode.code ++ s.fcode.code ++ s.phase.code : BitVec (3 + 1 + 2 + 2))

theorem statusWord_low_eq_add (s : State) :
    (statusWord s).extractLsb' 0 8 = outcomeByte s + (if s.perr then 0x20 else 0) :=
  (statusWord_low s).trans (append_ofBool_eq_add _ _ _ _)

/-! ## The rows of the table -/

/-- The outcome of every state that meets the invariant, in the row that its fields select. -/
theorem outcome_of_stateInv {s : State} (hinv : StateInv s) :
    (s.phase = .accum ∧ s.fcode = .noFailure ∧ s.fmode = .strict ∧ outcome s = some (.pending s.wcnt.toNat)) ∨
    (s.phase = .ok ∧ s.fcode = .noFailure ∧ outcome s = some (.success s.fmode (readableBytes s))) ∨
    (s.phase = .fail ∧ s.fcode = .invalidWordCount ∧ outcome s = some (.invalidWordCount s.wcnt.toNat)) ∨
    (s.phase = .fail ∧ s.fcode = .checksumMismatch ∧ s.fmode = .strict ∧ outcome s = some .checksumMismatch) := by
  cases hphase : s.phase with
  | accum =>
    obtain ⟨hmode, hcode, -⟩ := hinv.accum hphase
    exact .inl ⟨rfl, hcode, hmode, by simp [outcome, hphase, hcode, hmode]⟩
  | ok =>
    obtain ⟨hcode, -⟩ := hinv.ok hphase
    exact .inr (.inl ⟨rfl, hcode, by simp [outcome, hphase, hcode]⟩)
  | fail =>
    obtain ⟨-, hcode | hcode, -, hmismatch⟩ := hinv.fail hphase
    · exact .inr (.inr (.inl ⟨rfl, hcode, by simp [outcome, hphase, hcode]⟩))
    · obtain ⟨hmode, -⟩ := hmismatch hcode
      exact .inr (.inr (.inr ⟨rfl, hcode, hmode, by simp [outcome, hphase, hcode, hmode]⟩))

/-- The five ways a finalise can end, by mode, phase and failure class. -/
theorem finalised_outcomeByte (mode : Mode) (s : State) :
    (outcomeByte (finalised mode s) = 0x01 ∧ mode = .strict ∧ (finalised mode s).phase = .ok) ∨
    (outcomeByte (finalised mode s) = 0x11 ∧ mode = .lenient ∧ (finalised mode s).phase = .ok) ∨
    (outcomeByte (finalised mode s) = 0x06 ∧ mode = .strict ∧ (finalised mode s).fcode = .invalidWordCount) ∨
    (outcomeByte (finalised mode s) = 0x16 ∧ mode = .lenient ∧ (finalised mode s).fcode = .invalidWordCount) ∨
    (outcomeByte (finalised mode s) = 0x0A ∧ mode = .strict ∧ (finalised mode s).fcode = .checksumMismatch) := by
  cases mode with
  | strict =>
    obtain ⟨-, h⟩ | ⟨-, -, h⟩ | ⟨-, -, h⟩ := finalisedStrict_cases s <;> rw [finalised, h]
    · exact .inr (.inr (.inl ⟨by simp [outcomeByte, Mode.code, FailCode.code, Phase.code], rfl, rfl⟩))
    · exact .inl ⟨by simp [outcomeByte, Mode.code, FailCode.code, Phase.code], rfl, rfl⟩
    · exact .inr (.inr (.inr (.inr ⟨by simp [outcomeByte, Mode.code, FailCode.code, Phase.code], rfl, rfl⟩)))
  | lenient =>
    obtain ⟨-, h⟩ | ⟨-, h⟩ := finalisedLenient_cases s <;> rw [finalised, h]
    · exact .inr (.inr (.inr (.inl ⟨by simp [outcomeByte, Mode.code, FailCode.code, Phase.code], rfl, rfl⟩)))
    · exact .inr (.inl ⟨by simp [outcomeByte, Mode.code, FailCode.code, Phase.code], rfl, rfl⟩)

/-- Settles O50: the invariant selects a row of the table, whose fields STATUS shows; a finalise answers the STATUS it
leaves, whose low byte is that of its outcome and PERR. -/
theorem statusTellsTheOutcome : Obligations.StatusTellsTheOutcome := by
  refine ⟨fun s hinv => ?row, fun s t i d _ hphase hi hexec hrsp => ?answer⟩
  case row =>
    rw [statusWord_phase, statusWord_fcode, statusWord_fmode]
    obtain ⟨hp, hc, hm, ho⟩ | ⟨hp, hc, ho⟩ | ⟨hp, hc, ho⟩ | ⟨hp, hc, hm, ho⟩ := outcome_of_stateInv hinv
    · rw [hp, hc, hm]
      exact ⟨_, ho, .inl ⟨rfl, rfl, rfl, rfl⟩⟩
    · obtain ⟨-, -, hstrict, hlenient⟩ := hinv.ok hp
      rw [hp, hc]
      cases hm : s.fmode with
      | strict =>
        obtain ⟨holen, -⟩ := hstrict hm
        rw [hm] at ho
        exact ⟨_, ho, .inr (.inl ⟨rfl, rfl, rfl, _, rfl, (length_readableBytes s).trans holen⟩)⟩
      | lenient =>
        obtain ⟨holen, -⟩ := hlenient hm
        rw [hm] at ho
        exact ⟨_, ho, .inr (.inr (.inl ⟨rfl, rfl, rfl, _, rfl, (length_readableBytes s).trans holen⟩))⟩
    · rw [hp, hc]
      exact ⟨_, ho, .inr (.inr (.inr (.inl ⟨rfl, rfl, rfl⟩)))⟩
    · rw [hp, hc, hm]
      exact ⟨_, ho, .inr (.inr (.inr (.inr ⟨rfl, rfl, rfl, rfl⟩)))⟩
  case answer =>
    obtain ⟨mode, rfl⟩ := exists_finaliseInstr hi
    obtain rfl := Host.Outcome.next.inj ((exec_finalise_of_accum hphase mode).symm.trans hexec)
    obtain rfl : statusWord (finalised mode s) = d := by simpa using hrsp
    obtain ⟨-, -, -, hperr, -⟩ := finalised_frame mode s
    refine ⟨(statusWord_wcnt _).trans (finalised_wcnt mode s), outcomeByte (finalised mode s), ?_, ?_⟩
    · rw [statusWord_low_eq_add, hperr]
    · obtain ⟨hk, rfl, hend⟩ | ⟨hk, rfl, hend⟩ | ⟨hk, rfl, hend⟩ | ⟨hk, rfl, hend⟩ | ⟨hk, rfl, hend⟩ :=
        finalised_outcomeByte mode s
      · exact .inl ⟨hk, rfl, hend⟩
      · exact .inr (.inl ⟨hk, rfl, hend⟩)
      · exact .inr (.inr (.inl ⟨hk, rfl, hend⟩))
      · exact .inr (.inr (.inr (.inl ⟨hk, rfl, hend⟩)))
      · exact .inr (.inr (.inr (.inr ⟨hk, rfl, hend⟩)))

end Sys2Proof.Proofs
end

section
/-! PROOFS. The word functions of the hash, bit by bit (42_sha256.md R131; log 5). -/

open Sys2Proof Sys2Proof.Machine

namespace Sys2Proof.Proofs

/-- Bit `i` of a rotation: the right shift gives the bits from `k` up, the left shift brings the low `k` bits round. -/
theorem getLsbD_rotr (x : Word32) {k i : Nat} (hpos : 0 < k) (hk : k < 32) (hi : i < 32) :
    (Sha256.rotr x k).getLsbD i = x.getLsbD ((i + k) % 32) := by
  rw [Sha256.rotr, BitVec.getLsbD_or, BitVec.getLsbD_ushiftRight, BitVec.getLsbD_shiftLeft]
  by_cases hround : i + k < 32
  · have hlow : i < 32 - k := by omega
    simp [hlow, Nat.mod_eq_of_lt hround, Nat.add_comm k i]
  · have hhigh : ¬ i < 32 - k := by omega
    have hmod : (i + k) % 32 = i - (32 - k) := by omega
    have hout : x.getLsbD (k + i) = false := BitVec.getLsbD_of_ge x _ (by omega)
    simp [hhigh, hmod, hout, hi]

theorem getLsbD_ch (x y z : Word32) {i : Nat} (hi : i < 32) :
    (Sha256.ch x y z).getLsbD i = if x.getLsbD i then y.getLsbD i else z.getLsbD i := by
  simp only [Sha256.ch, BitVec.getLsbD_xor, BitVec.getLsbD_and, BitVec.getLsbD_not, hi, decide_true, Bool.true_and]
  cases x.getLsbD i <;> simp

/-- The exclusive or of the three pairwise products is the majority. -/
theorem majority_iff : ∀ a b c : Bool,
    (((a && b) ^^ (a && c)) ^^ (b && c)) = true ↔ 2 ≤ a.toNat + b.toNat + c.toNat := by decide

/-- Settles O39: `rotr` rotates, from which the four sigma functions follow; `ch` and `maj` are truth tables. -/
theorem hashWordFunctions : Obligations.HashWordFunctions := by
  refine ⟨fun x k i hpos hk hi => getLsbD_rotr x hpos hk hi, fun x y z i hi => ⟨getLsbD_ch x y z hi, ?maj⟩,
    fun x i hi => ?sigma⟩
  case maj =>
    rw [← majority_iff]
    simp only [Sha256.maj, BitVec.getLsbD_xor, BitVec.getLsbD_and]
  case sigma =>
    have hrotr : ∀ k, 0 < k → k < 32 → (Sha256.rotr x k).getLsbD i = x.getLsbD ((i + k) % 32) := fun k hpos hk =>
      getLsbD_rotr x hpos hk hi
    simp only [Sha256.bsig0, Sha256.bsig1, Sha256.ssig0, Sha256.ssig1, BitVec.getLsbD_xor, BitVec.getLsbD_ushiftRight,
      Nat.add_comm _ i, hrotr, Nat.reduceLT]
    trivial

end Sys2Proof.Proofs
end

section
/-! PROOFS. Padding, parsing and the one block of an entropy (42_sha256.md R132, R138; log 5). -/

open Sys2Proof Sys2Proof.Machine

namespace Sys2Proof.Proofs

/-! ## Bytes of a word, most significant first -/

/-- The slices of a word of `k` bytes, from the top down, spell the word. -/
theorem flatMap_bits_slices {k : Nat} (v : BitVec (8 * k)) :
    ((List.range k).map fun j => v.extractLsb' (8 * (k - 1 - j)) 8).flatMap bitsMsb = bitsMsb v := by
  refine List.ext_getElem? fun p => ?_
  rw [getElem?_flatMap_bits (by decide), List.getElem?_map]
  by_cases hp : p < 8 * k
  · have hbyte : p / 8 < k := by omega
    have hbit : 8 * (k - 1 - p / 8) + (8 - 1 - p % 8) = 8 * k - 1 - p := by omega
    have hslice : 8 - 1 - p % 8 < 8 := by omega
    rw [List.getElem?_range hbyte, getElem?_bitsMsb v p hp, ← hbit]
    simp only [Option.map_some, BitVec.getLsbD_extractLsb', hslice, decide_true, Bool.true_and]
  · rw [List.getElem?_eq_none (l := List.range k) (by rw [List.length_range]; omega),
      List.getElem?_eq_none (by rw [length_bitsMsb]; omega)]
    rfl

theorem flatMap_bits_lengthBytes (l : Nat) : (Sha256.lengthBytes l).flatMap bitsMsb = bitsMsb (BitVec.ofNat 64 l) :=
  flatMap_bits_slices (k := 8) (BitVec.ofNat 64 l)

theorem flatMap_bits_wordBytes (x : Word32) : (Sha256.wordBytes x).flatMap bitsMsb = bitsMsb x :=
  flatMap_bits_slices (k := 4) x

/-! ## Padding -/

@[simp] theorem length_lengthBytes (l : Nat) : (Sha256.lengthBytes l).length = 8 := by simp [Sha256.lengthBytes]

/-- The zeros bring the message and its 0x80 to 56 modulo 64, and no fewer do. -/
theorem zeroCount_least (len : Nat) : (len + 1 + Sha256.zeroCount len) % 64 = 56 ∧
    ∀ z, (len + 1 + z) % 64 = 56 → Sha256.zeroCount len ≤ z := by
  rw [Sha256.zeroCount]
  constructor
  · omega
  · intro z hz
    omega

theorem length_pad (m : List Byte) : (Sha256.pad m).length = m.length + 1 + Sha256.zeroCount m.length + 8 := by
  rw [Sha256.pad, List.length_append, List.length_append, List.length_append, List.length_replicate,
    length_lengthBytes, List.length_singleton]

theorem length_pad_mod (m : List Byte) : (Sha256.pad m).length % 64 = 0 := by
  obtain ⟨hmod, -⟩ := zeroCount_least m.length
  rw [length_pad]
  omega

/-! ## Parsing -/

theorem toNat_append_byte {n : Nat} (a : BitVec n) (b : Byte) : (a ++ b).toNat = a.toNat * 2 ^ 8 + b.toNat := by
  rw [BitVec.toNat_append, ← Nat.shiftLeft_add_eq_or_of_lt b.isLt, Nat.shiftLeft_eq]

/-- A block word is four bytes, the first most significant. -/
theorem toNat_blockWord (block : List Byte) (t : Nat) : (Sha256.blockWord block t).toNat =
    (block.getD (4 * t) 0).toNat * 2 ^ 24 + (block.getD (4 * t + 1) 0).toNat * 2 ^ 16 +
      (block.getD (4 * t + 2) 0).toNat * 2 ^ 8 + (block.getD (4 * t + 3) 0).toNat := by
  rw [Sha256.blockWord, toNat_append_byte, toNat_append_byte, toNat_append_byte]
  ring

/-- Blocks of 64 bytes concatenate to the message they were cut from. -/
theorem blocks_of_length (k : Nat) (m : List Byte) (h : m.length = 64 * k) :
    (Sha256.blocks k m).flatten = m ∧ ∀ b ∈ Sha256.blocks k m, b.length = 64 := by
  induction k generalizing m with
  | zero =>
    rw [List.length_eq_zero_iff.1 h]
    exact ⟨rfl, nofun⟩
  | succ k ih =>
    obtain ⟨hflat, hall⟩ := ih (m.drop 64) (by rw [List.length_drop]; omega)
    rw [Sha256.blocks, List.flatten_cons, hflat, List.take_append_drop, List.forall_mem_cons]
    exact ⟨rfl, by rw [List.length_take]; omega, hall⟩

/-- Settles O40: the padding has the parts of R132 by definition, and its length is whole blocks. -/
theorem paddingAndParsing : Obligations.PaddingAndParsing := by
  refine ⟨fun m hshort => ⟨Sha256.zeroCount m.length, Sha256.lengthBytes (8 * m.length), rfl,
    (zeroCount_least _).left, (zeroCount_least _).right, length_lengthBytes _, ?value, length_pad_mod m⟩,
    fun block t ht => ⟨Sha256.blockWord block t, ?word, toNat_blockWord block t⟩,
    fun m => blocks_of_length _ _ ?whole⟩
  case value => rw [flatMap_bits_lengthBytes, val_bitsMsb, BitVec.toNat_ofNat, Nat.mod_eq_of_lt hshort]
  case word => rw [Sha256.blockWords, List.getElem?_map, List.getElem?_range ht, Option.map_some]
  case whole =>
    have hmod := length_pad_mod m
    omega

/-! ## The one block of an entropy -/

/-- The length in bits of an entropy needs the two low bytes only. -/
theorem lengthBytes_of_entropy : ∀ len ∈ [16, 20, 24, 28, 32],
    Sha256.lengthBytes (8 * len) =
      List.replicate 6 0 ++ [BitVec.ofNat 8 (8 * len / 256), BitVec.ofNat 8 (8 * len)] := by decide

/-- Settles O42: the zeros of the padding and the six zero bytes of the length reach up to byte 61; the padding is
one block, so it is compressed once. -/
theorem entropyIsHashedInOneBlock : Obligations.EntropyIsHashedInOneBlock := by
  intro e he
  have hzeros : ∀ len ∈ [16, 20, 24, 28, 32], Sha256.zeroCount len + 6 = 61 - len := by decide
  have hblock : ∀ len ∈ [16, 20, 24, 28, 32], len + 1 + Sha256.zeroCount len + 8 = 64 := by decide
  have hpad : (Sha256.pad e).length = 64 := (length_pad e).trans (hblock _ he)
  refine ⟨?layout, hpad, ?once⟩
  case layout =>
    rw [Sha256.pad, lengthBytes_of_entropy _ he, ← hzeros _ he, ← List.replicate_append_replicate]
    simp only [List.append_assoc]
  case once =>
    have hblocks : Sha256.blocks ((Sha256.pad e).length / 64) (Sha256.pad e) = [Sha256.pad e] := by
      rw [hpad, Sha256.blocks, List.take_of_length_le hpad.le]
      rfl
    rw [Sha256.hashValue, hblocks]
    rfl

end Sys2Proof.Proofs
end

section
/-! PROOFS. The message schedule (42_sha256.md R135; log 5). -/

open Sys2Proof Sys2Proof.Machine

namespace Sys2Proof.Proofs

/-- The recurrence of R135 at word `t` of a schedule, oldest word first. -/
def scheduleTerm (w : List Word32) (t : Nat) : Word32 :=
  Sha256.ssig1 (w.getD (t - 2) 0) + w.getD (t - 7) 0 + Sha256.ssig0 (w.getD (t - 15) 0) + w.getD (t - 16) 0

/-- The words held newest first, as `extend` counts them from the end of the schedule so far. -/
theorem getD_eq_getD_reverse (w : List Word32) {j : Nat} (hj : j < w.length) :
    w.getD j 0 = w.reverse.getD (w.length - (j + 1)) 0 := by
  rw [List.getD_eq_getElem _ _ hj, List.getD_eq_getElem _ _ (by rw [List.length_reverse]; omega), List.getElem_reverse]
  congr 1
  omega

/-- The next word of the schedule is the recurrence at its position. -/
theorem extend_succ {w : List Word32} (hw : 16 ≤ w.length) (k : Nat) :
    Sha256.extend (k + 1) w = Sha256.extend k (scheduleTerm w.reverse w.length :: w) := by
  rw [Sha256.extend, scheduleTerm, getD_eq_getD_reverse w (j := 1) (by omega),
    getD_eq_getD_reverse w (j := 6) (by omega), getD_eq_getD_reverse w (j := 14) (by omega),
    getD_eq_getD_reverse w (j := 15) (by omega)]

/-- A later schedule keeps the words it started from. -/
theorem exists_extend_eq (k : Nat) (w : List Word32) :
    ∃ new, (Sha256.extend k w).reverse = w.reverse ++ new ∧ new.length = k := by
  induction k generalizing w with
  | zero => exact ⟨[], by rw [Sha256.extend, List.append_nil], rfl⟩
  | succ k ih =>
    obtain ⟨new, hnew, hlen⟩ := ih (_ :: w)
    exact ⟨_ :: new, by rw [Sha256.extend, hnew, List.reverse_cons, List.append_assoc, List.singleton_append],
      by rw [List.length_cons, hlen]⟩

/-- The recurrence looks at earlier words only. -/
theorem scheduleTerm_append (w new : List Word32) (hw : 16 ≤ w.length) :
    scheduleTerm (w ++ new) w.length = scheduleTerm w w.length := by
  have hearlier : ∀ j, 0 < j → j ≤ 16 → (w ++ new).getD (w.length - j) 0 = w.getD (w.length - j) 0 := fun j _ _ =>
    List.getD_append _ _ _ _ (by omega)
  simp only [scheduleTerm, hearlier, Nat.reduceLT, Nat.reduceLeDiff]

/-- Every word that `extend` adds satisfies the recurrence in the finished schedule. -/
theorem extend_getElem? (k : Nat) {w : List Word32} (hw : 16 ≤ w.length) {t : Nat} (ht : w.length ≤ t)
    (htk : t < w.length + k) :
    (Sha256.extend k w).reverse[t]? = some (scheduleTerm (Sha256.extend k w).reverse t) := by
  induction k generalizing w with
  | zero => omega
  | succ k ih =>
    rw [extend_succ hw]
    rcases Nat.eq_or_lt_of_le ht with rfl | hlt
    · obtain ⟨new, hnew, -⟩ := exists_extend_eq k (scheduleTerm w.reverse w.length :: w)
      have hterm := scheduleTerm_append w.reverse (scheduleTerm w.reverse w.length :: new)
        (by rwa [List.length_reverse])
      rw [List.length_reverse] at hterm
      rw [hnew, List.reverse_cons, List.append_assoc, List.singleton_append, hterm,
        List.getElem?_append_right (by rw [List.length_reverse]), List.length_reverse, Nat.sub_self]
      rfl
    · exact ih (by rw [List.length_cons]; omega) (by rw [List.length_cons]; omega) (by rw [List.length_cons]; omega)

/-- Settles O41: the schedule is the sixteen words of the block and 48 more, each of which meets the recurrence. -/
theorem messageSchedule : Obligations.MessageSchedule := by
  intro block
  have hblock : (Sha256.blockWords block).length = 16 := by simp [Sha256.blockWords]
  have hstart : (Sha256.blockWords block).reverse.length = 16 := by rw [List.length_reverse, hblock]
  obtain ⟨new, hnew, hlen⟩ := exists_extend_eq 48 (Sha256.blockWords block).reverse
  rw [List.reverse_reverse] at hnew
  refine ⟨?length, fun t ht => ?first, fun t ht ht' => ?later⟩
  case length => rw [Sha256.schedule, hnew, List.length_append, hblock, hlen]
  case first => rw [Sha256.schedule, hnew, List.getElem?_append_left (hblock ▸ ht)]
  case later => exact extend_getElem? 48 hstart.ge (hstart ▸ ht) (hstart ▸ ht')

end Sys2Proof.Proofs
end

section
/-! PROOFS. The digest, its check values and the constants (42_sha256.md R133, R134, R137, R139; log 5). -/

open Sys2Proof Sys2Proof.Machine

namespace Sys2Proof.Proofs

/-- The eight words of a hash value, H[0] to H[7]. -/
def hashWords (v : Sha256.Work) : List Word32 := [v.a, v.b, v.c, v.d, v.e, v.f, v.g, v.h]

theorem work_bytes_eq (v : Sha256.Work) : v.bytes = (hashWords v).flatMap Sha256.wordBytes := by
  simp [Sha256.Work.bytes, hashWords]

/-- The digest of a hash value as a bit sequence: its words in order. -/
theorem flatMap_bits_work_bytes (v : Sha256.Work) : v.bytes.flatMap bitsMsb = (hashWords v).flatMap bitsMsb := by
  rw [work_bytes_eq, List.flatMap_assoc]
  simp only [flatMap_bits_wordBytes]

/-- Settles O43: the digest is the eight words as bytes, and each word's bytes spell the word. -/
theorem digestHasThirtyTwoBytes : Obligations.DigestHasThirtyTwoBytes := by
  refine fun m => ⟨rfl, ?first, fun k x hx j hj => ?bits⟩
  case first =>
    have hbyte : (Sha256.digest m)[0]? = some ((Sha256.hashValue m).a.extractLsb' 24 8) := rfl
    rw [hbyte, BitVec.extractLsb']
  case bits =>
    have hdiv : (32 * k + j) / 32 = k := by omega
    have hmod : (32 * k + j) % 32 = j := by omega
    rw [Sha256.digest, flatMap_bits_work_bytes, getElem?_flatMap_bits (by decide), hdiv, hmod, hashWords, hx]
    rfl

/-- Settles O37: the four digests are computed in the kernel. -/
theorem digestCheckValues : Obligations.DigestCheckValues := by
  refine ⟨?empty, ?abc, ?sixteen, ?thirtyTwo⟩
  case empty => decide +kernel
  case abc => decide +kernel
  case sixteen => decide +kernel
  case thirtyTwo => decide +kernel

/-- Settles O38: the primes, the lengths and the bounds of each root are computed in the kernel. -/
theorem constantsAreRootsOfPrimes : Obligations.ConstantsAreRootsOfPrimes := by
  refine ⟨?primes, ?length, ?square, ?cube⟩
  case primes => decide +kernel
  case length => decide +kernel
  case square => decide +kernel
  case cube => decide +kernel

end Sys2Proof.Proofs
end

section
/-! PROOFS. The assembler text of a command is read back as that command (30_encoding.md R78). -/

open Sys2Proof Sys2Proof.Machine

namespace Sys2Proof.Proofs

/-! ## Sources and commands -/

/-- The written form of every command passes the checks and stands for it: the per-command facts of Laws/PerInstr. -/
theorem source_of_instr (i : Instr) : i.wellFormed = true ∧ i.source.toInstr = some i := by
  cases i with
  | stat => exact Laws.SourceForm.stat
  | clr => exact Laws.SourceForm.clr
  | push idx => exact Laws.SourceForm.push idx
  | finS => exact Laws.SourceForm.finS
  | finL => exact Laws.SourceForm.finL
  | rdb n => exact Laws.SourceForm.rdb n
  | rdl => exact Laws.SourceForm.rdl
  | rdc => exact Laws.SourceForm.rdc

/-- A number that passes the range check is the operand it is cut to. -/
theorem exists_source_eq {c : Source} (h : c.wellFormed = true) : ∃ i : Instr, i.source = c := by
  obtain ⟨mnemonic, operand⟩ := c
  cases operand with
  | none =>
    cases mnemonic with
    | STAT => exact ⟨.stat, rfl⟩
    | CLR => exact ⟨.clr, rfl⟩
    | FINS => exact ⟨.finS, rfl⟩
    | FINL => exact ⟨.finL, rfl⟩
    | RDL => exact ⟨.rdl, rfl⟩
    | RDC => exact ⟨.rdc, rfl⟩
    | PUSH => exact absurd h nofun
    | RDB => exact absurd h nofun
  | some k =>
    cases mnemonic with
    | PUSH =>
      have hk : k < 2048 := by
        by_contra hge
        simp [Source.wellFormed, Source.problem, hge] at h
      exact ⟨.push (BitVec.ofNat 11 k), by rw [Instr.source, BitVec.toNat_ofNat, Nat.mod_eq_of_lt hk]⟩
    | RDB =>
      have hk : k < 64 := by
        by_contra hge
        simp [Source.wellFormed, Source.problem, hge] at h
      exact ⟨.rdb (BitVec.ofNat 6 k), by rw [Instr.source, BitVec.toNat_ofNat, Nat.mod_eq_of_lt hk]⟩
    | STAT => exact absurd h nofun
    | CLR => exact absurd h nofun
    | FINS => exact absurd h nofun
    | FINL => exact absurd h nofun
    | RDL => exact absurd h nofun
    | RDC => exact absurd h nofun

/-- The checks are exact: a source passes them when it is the written form of a command. -/
theorem wellFormed_iff (c : Source) : c.wellFormed = true ↔ ∃ i : Instr, c.toInstr = some i ∧ i.source = c := by
  constructor
  · intro h
    obtain ⟨i, rfl⟩ := exists_source_eq h
    obtain ⟨-, hi⟩ := source_of_instr i
    exact ⟨i, hi, rfl⟩
  · rintro ⟨i, -, rfl⟩
    obtain ⟨hi, -⟩ := source_of_instr i
    exact hi

theorem sourceLine_source (i : Instr) : sourceLine i.source = .command i := by
  obtain ⟨hwf, hi⟩ := source_of_instr i
  have hproblem : i.source.problem = none := Option.isNone_iff_eq_none.1 hwf
  rw [sourceLine, hproblem, hi]

/-! ## Decimal numbers -/

theorem toNat_of_isDigit {c : Char} (h : c.isDigit = true) : 48 ≤ c.toNat ∧ c.toNat ≤ 57 := by
  simpa [Char.isDigit, UInt32.le_iff_toNat_le] using h

theorem digitValue_of_isDigit {c : Char} (h : c.isDigit = true) : digitValue 10 c = some (c.toNat - 48) := by
  have hrange := toNat_of_isDigit h
  have hlt : c.toNat - 48 < 10 := by omega
  simp only [digitValue, hrange, and_self, if_true, hlt]

/-- A string of decimal digits is read as the library reads it. -/
theorem digitsValue_of_isDigit {cs : List Char} (h : ∀ c ∈ cs, c.isDigit = true) (acc : Nat) :
    digitsValue 10 acc cs = some (Nat.ofDigitChars 10 cs acc) := by
  induction cs generalizing acc with
  | nil => rfl
  | cons c cs ih =>
    obtain ⟨hc, hcs⟩ := List.forall_mem_cons.1 h
    rw [digitsValue, digitValue_of_isDigit hc, Option.bind_some, ih hcs, Nat.ofDigitChars_cons]
    rfl

/-- A string of decimal digits does not begin with `0x`. -/
theorem parseNumber_of_isDigit {cs : List Char} (hne : cs ≠ []) (h : ∀ c ∈ cs, c.isDigit = true) :
    parseNumber cs = digitsValue 10 0 cs := by
  unfold parseNumber
  split
  next => exact absurd rfl hne
  next => exact absurd (h 'x' (by simp)) (by decide)
  next => exact absurd (h 'x' (by simp)) (by decide)
  next => rfl

theorem isDigit_of_mem_toDigits {k : Nat} {c : Char} (hc : c ∈ Nat.toDigits 10 k) : c.isDigit = true :=
  Nat.isDigit_of_mem_toDigits (by decide) (by decide) hc

theorem parseNumber_toDigits (k : Nat) : parseNumber (Nat.toDigits 10 k) = some k := by
  have hdigits : ∀ c ∈ Nat.toDigits 10 k, c.isDigit = true := fun _ => isDigit_of_mem_toDigits
  rw [parseNumber_of_isDigit Nat.toDigits_ne_nil hdigits, digitsValue_of_isDigit hdigits, Nat.ofDigitChars_ten_toDigits]

/-! ## Tokens -/

/-- Characters that make up one token: at least one, no space, and no `;`. -/
def IsToken (t : List Char) : Prop := t ≠ [] ∧ ∀ c ∈ t, c ≠ ' ' ∧ c ≠ ';'

theorem isToken_mnemonicText (k : Mnemonic) : IsToken (mnemonicText k) := by
  cases k <;> simp [IsToken, mnemonicText]

theorem isToken_toDigits (k : Nat) : IsToken (Nat.toDigits 10 k) := by
  refine ⟨Nat.toDigits_ne_nil, fun c hc => ?_⟩
  have hdigit := isDigit_of_mem_toDigits hc
  constructor <;> rintro rfl <;> exact absurd hdigit (by decide)

/-- The characters of a token are collected in reverse. -/
theorem tokens_append {t : List Char} (ht : ∀ c ∈ t, c ≠ ' ' ∧ c ≠ ';') (cur rest : List Char) :
    tokens cur (t ++ rest) = tokens (t.reverse ++ cur) rest := by
  induction t generalizing cur with
  | nil => rfl
  | cons c t ih =>
    obtain ⟨⟨hc, -⟩, hrest⟩ := List.forall_mem_cons.1 ht
    rw [List.cons_append, tokens, if_neg hc, ih hrest, List.reverse_cons, List.append_assoc]
    rfl

theorem tokens_of_isToken {t : List Char} (ht : IsToken t) : tokens [] t = [t] := by
  obtain ⟨hne, hchars⟩ := ht
  have happ := tokens_append hchars [] []
  rw [List.append_nil, List.append_nil] at happ
  simp [happ, tokens, hne]

/-- A space ends the token before it. -/
theorem tokens_append_space {t : List Char} (ht : IsToken t) (rest : List Char) :
    tokens [] (t ++ ' ' :: rest) = t :: tokens [] rest := by
  obtain ⟨hne, hchars⟩ := ht
  rw [tokens_append hchars, List.append_nil, tokens]
  simp [hne]

/-! ## The text of a command -/

/-- The tokens of a source: the mnemonic and, when there is one, the operand in decimal. -/
def sourceTokens (c : Source) : List (List Char) :=
  mnemonicText c.mnemonic :: (c.operand.map (Nat.toDigits 10)).toList

/-- The text of a source (30_encoding.md R78, log 21). -/
def sourceText (c : Source) : List Char :=
  mnemonicText c.mnemonic ++ match c.operand with
    | none => []
    | some k => ' ' :: Nat.toDigits 10 k

theorem instrText_eq (i : Instr) : instrText i = sourceText i.source := rfl

theorem tokens_sourceText (c : Source) : tokens [] (sourceText c) = sourceTokens c := by
  obtain ⟨k, operand⟩ := c
  cases operand with
  | none => exact (congrArg (tokens []) (List.append_nil _)).trans (tokens_of_isToken (isToken_mnemonicText k))
  | some v =>
    rw [sourceText, tokens_append_space (isToken_mnemonicText k), tokens_of_isToken (isToken_toDigits v)]
    rfl

/-- A space at the end of a line adds no token (log 13). -/
theorem tokens_sourceText_space (c : Source) : tokens [] (sourceText c ++ [' ']) = sourceTokens c := by
  obtain ⟨k, operand⟩ := c
  cases operand with
  | none =>
    rw [sourceText, List.append_nil, tokens_append_space (isToken_mnemonicText k)]
    rfl
  | some v =>
    rw [sourceText, List.append_assoc, List.cons_append, tokens_append_space (isToken_mnemonicText k),
      tokens_append_space (isToken_toDigits v)]
    rfl

/-- A text has no `;`. -/
theorem ne_semicolon_of_mem_sourceText {c : Source} {x : Char} (hx : x ∈ sourceText c) : x ≠ ';' := by
  obtain ⟨k, operand⟩ := c
  obtain ⟨-, hk⟩ := isToken_mnemonicText k
  cases operand with
  | none =>
    rw [sourceText, List.append_nil] at hx
    exact (hk x hx).right
  | some v =>
    obtain ⟨-, hv⟩ := isToken_toDigits v
    rw [sourceText, List.mem_append, List.mem_cons] at hx
    obtain hx | rfl | hx := hx
    · exact (hk x hx).right
    · decide
    · exact (hv x hx).right

theorem stripComment_nil : stripComment [] = [] := rfl

theorem stripComment_append {line : List Char} (h : ∀ x ∈ line, x ≠ ';') (rest : List Char) :
    stripComment (line ++ rest) = line ++ stripComment rest := by
  rw [stripComment, List.takeWhile_append_of_pos (fun x hx => by simpa using h x hx)]
  rfl

/-! ## Reading a line -/

theorem parseMnemonic_mnemonicText (k : Mnemonic) : parseMnemonic (mnemonicText k) = some k := by
  cases k <;> rfl

/-- A line with the tokens of a source is that source. -/
theorem parseLine_of_tokens {line : List Char} {c : Source} (h : tokens [] (stripComment line) = sourceTokens c) :
    parseLine line = sourceLine c := by
  obtain ⟨k, operand⟩ := c
  rw [parseLine, h, sourceTokens]
  cases operand with
  | none => simp [parseMnemonic_mnemonicText]
  | some v => simp [parseMnemonic_mnemonicText, parseNumber_toDigits]

/-- Settles O5: the checks are exact; the text of a command splits into the tokens of its source, with a space and a
comment behind it too, and a line with these tokens is the command. -/
theorem assemblerReadsEveryCommandBack : Obligations.AssemblerReadsEveryCommandBack := by
  have hclean : ∀ i : Instr, ∀ x ∈ sourceText i.source, x ≠ ';' := fun i x => ne_semicolon_of_mem_sourceText
  refine ⟨wellFormed_iff, fun i => ?plain, fun i note => ?comment⟩
  case plain =>
    have hstrip : stripComment (sourceText i.source) = sourceText i.source := by
      have happ := stripComment_append (hclean i) []
      rwa [List.append_nil, stripComment_nil, List.append_nil] at happ
    rw [instrText_eq, parseLine_of_tokens (c := i.source) (by rw [hstrip, tokens_sourceText]), sourceLine_source]
  case comment =>
    have hstrip : stripComment (sourceText i.source ++ ' ' :: ';' :: note) = sourceText i.source ++ [' '] :=
      stripComment_append (hclean i) _
    rw [instrText_eq, parseLine_of_tokens (c := i.source) (by rw [hstrip, tokens_sourceText_space]),
      sourceLine_source]

end Sys2Proof.Proofs
end
